-- ==== Sys2Proof/Word.lean ====
section
/-! DEFINITION. The machine's words, bytes and register indices (R6 of 00_scope.md, R10 and R11 of 10_state.md). -/

namespace Sys2Proof

/-- A word: 32 bits, always read as an unsigned integer (R6). -/
abbrev Word := BitVec 32

/-- What the console boundary carries: a number 0 to 255 (R5 `BYTE_MAX`, R152). -/
abbrev Byte := BitVec 8

/-- A register index. It is made of exactly 3 bits of the instruction word, so it is in range by
construction (R11). -/
abbrev Reg := Fin 8

end Sys2Proof
end

