-- ==== Sys2Proof/Syntax.lean ====
section
/-! DEFINITION. The 14 instructions, one constructor per row of spec/opcode_table.json, in its order
(R55 of 30_encoding.md). A constructor carries exactly the fields its row uses (R55, column "fields used"). -/

namespace Sys2Proof

/-- An instruction. `a b c` are the fields `A`, `B`, `C` of format R3 (R51); `ia` and `imm` are the fields
`IA` and `IMM` of format LI (R52). `imm` is a number, and `Instr.wellFormed` bounds it (R59). -/
inductive Instr where
  /-- `CMOV xA, xB, xC`, tag 0 (R90). -/
  | cmov (a b c : Reg)
  /-- `AIDX xA, xB, xC`, tag 1 (R100). -/
  | aidx (a b c : Reg)
  /-- `AUPD xA, xB, xC`, tag 2 (R101). -/
  | aupd (a b c : Reg)
  /-- `ADD xA, xB, xC`, tag 3 (R91). -/
  | add (a b c : Reg)
  /-- `MUL xA, xB, xC`, tag 4 (R92). -/
  | mul (a b c : Reg)
  /-- `DIV xA, xB, xC`, tag 5 (R93). -/
  | div (a b c : Reg)
  /-- `NAND xA, xB, xC`, tag 6 (R94). -/
  | nand (a b c : Reg)
  /-- `HALT`, tag 7 (R120). -/
  | halt
  /-- `ALLOC xB, xC`, tag 8 (R102). -/
  | alloc (b c : Reg)
  /-- `FREE xC`, tag 9 (R103). -/
  | free (c : Reg)
  /-- `OUT xC`, tag 10 (R140). -/
  | output (c : Reg)
  /-- `IN xC`, tag 11 (R141). -/
  | input (c : Reg)
  /-- `LOADP xB, xC`, tag 12 (R121). -/
  | loadp (b c : Reg)
  /-- `LDI xIA, imm`, tag 13 (R95). -/
  | ldi (ia : Reg) (imm : Nat)
  deriving DecidableEq, Repr

end Sys2Proof
end

