-- ==== Sys2Proof/WellFormed.lean ====
section
/-! DEFINITION. Which instructions have an encoding. -/

namespace Sys2Proof

/-- The one check an instruction can fail: the immediate of LDI is at most 0x1FFFFFF (R59 of 30_encoding.md,
"0 <= imm <= 0x1FFFFFF"; R54). Register indices are in range by their type (R11 of 10_state.md). -/
def Instr.wellFormed : Instr → Bool
  | .cmov _ _ _ => true
  | .aidx _ _ _ => true
  | .aupd _ _ _ => true
  | .add _ _ _ => true
  | .mul _ _ _ => true
  | .div _ _ _ => true
  | .nand _ _ _ => true
  | .halt => true
  | .alloc _ _ => true
  | .free _ => true
  | .output _ => true
  | .input _ => true
  | .loadp _ _ => true
  | .ldi _ imm => decide (imm ≤ 0x1FFFFFF)

end Sys2Proof
end

