-- ==== Sys2Proof/Decode.lean ====
section
/-! DEFINITION. The decoder, total on every word (R53 of 30_encoding.md), and the encoder written from the same
tables (R60). The numbering of the 14 operations stands in `opTable` alone (D1). -/

namespace Sys2Proof

/-! ## Operations and their tags -/

/-- The names of the 14 operations (R9 of 00_scope.md). -/
inductive Op where
  | cmov | aidx | aupd | add | mul | div | nand | halt | alloc | free | output | input | loadp | ldi
  deriving DecidableEq, Repr

/-- The opcode map (R55): an operation's tag is its place in this list, counted from 0 (D1, log 8). -/
def opTable : List Op :=
  [.cmov, .aidx, .aupd, .add, .mul, .div, .nand, .halt, .alloc, .free, .output, .input, .loadp, .ldi]

/-- The tag of an operation (R55). -/
def Op.tag (o : Op) : Nat := opTable.idxOf o

/-- The operation of a tag; none for 14 and 15 (R56). -/
def opOfTag (t : Nat) : Option Op := opTable[t]?

/-- The operation of an instruction. -/
def Instr.op : Instr → Op
  | .cmov _ _ _ => .cmov
  | .aidx _ _ _ => .aidx
  | .aupd _ _ _ => .aupd
  | .add _ _ _ => .add
  | .mul _ _ _ => .mul
  | .div _ _ _ => .div
  | .nand _ _ _ => .nand
  | .halt => .halt
  | .alloc _ _ => .alloc
  | .free _ => .free
  | .output _ => .output
  | .input _ => .input
  | .loadp _ _ => .loadp
  | .ldi _ _ => .ldi

/-! ## Fields -/

/-- `w[hi:lo]`, the unsigned integer made of bits `hi` down to `lo` (R6 of 00_scope.md). -/
def bits (w : Word) (hi lo : Nat) : Nat := (w.extractLsb hi lo).toNat

/-- A 3-bit register field whose lowest bit is bit `lo`. -/
def regField (w : Word) (lo : Nat) : Reg := Fin.ofNat 8 (bits w (lo + 2) lo)

/-- `op = w[31:28]` (R8, R51, R52). -/
def fieldOp (w : Word) : Nat := bits w 31 28
/-- `A = w[8:6]` (R8, R51). -/
def fieldA (w : Word) : Reg := regField w 6
/-- `B = w[5:3]` (R8, R51). -/
def fieldB (w : Word) : Reg := regField w 3
/-- `C = w[2:0]` (R8, R51). -/
def fieldC (w : Word) : Reg := regField w 0
/-- `IA = w[27:25]` (R8, R52, C4). -/
def fieldIA (w : Word) : Reg := regField w 25
/-- `IMM = w[24:0]` (R8, R52). -/
def fieldIMM (w : Word) : Nat := bits w 24 0

/-! ## The decoder -/

/-- Why a word is no instruction. -/
inductive DecodeError where
  /-- The tag is 14 or 15 (R56). The dispatcher raises MalformedOperation for it (R75). -/
  | malformedOperation (tag : Nat)
  deriving DecidableEq, Repr

/-- The instruction an operation makes of a word's fields: format LI for LDI, format R3 for the others, and of R3
the fields the operation uses (R51, R52, R55). -/
def Op.instr (o : Op) (w : Word) : Instr :=
  match o with
  | .cmov => .cmov (fieldA w) (fieldB w) (fieldC w)
  | .aidx => .aidx (fieldA w) (fieldB w) (fieldC w)
  | .aupd => .aupd (fieldA w) (fieldB w) (fieldC w)
  | .add => .add (fieldA w) (fieldB w) (fieldC w)
  | .mul => .mul (fieldA w) (fieldB w) (fieldC w)
  | .div => .div (fieldA w) (fieldB w) (fieldC w)
  | .nand => .nand (fieldA w) (fieldB w) (fieldC w)
  | .halt => .halt
  | .alloc => .alloc (fieldB w) (fieldC w)
  | .free => .free (fieldC w)
  | .output => .output (fieldC w)
  | .input => .input (fieldC w)
  | .loadp => .loadp (fieldB w) (fieldC w)
  | .ldi => .ldi (fieldIA w) (fieldIMM w)

/-- The decoder (R53): a pure function of the word alone (R50). Decoding raises nothing itself; a tag outside the
14 is reported by name, and the dispatcher turns that into the fault (R75). -/
def decode (w : Word) : Except DecodeError Instr :=
  match opOfTag (fieldOp w) with
  | some o => .ok (o.instr w)
  | none => .error (.malformedOperation (fieldOp w))

/-- The decoder on a row of spec/opcode_table.json: an instruction is exactly one 32-bit word (R50), so a longer
one is no instruction, and of a shorter one the missing high bits are 0. -/
def decodeTableWord (nbits w : Nat) : Option Instr :=
  if 32 < nbits then none
  else
    match decode (BitVec.ofNat 32 (w % 2 ^ nbits)) with
    | .ok i => some i
    | .error _ => none

/-! ## The encoder -/

/-- `Encode(R3 op A B C)` of R60. -/
def encodeR3 (o : Op) (a b c : Reg) : Word :=
  BitVec.ofNat 32 (o.tag * 2 ^ 28 + a.val * 64 + b.val * 8 + c.val)

/-- `Encode(LDI IA IMM)` of R60. -/
def encodeLI (o : Op) (ia : Reg) (imm : Nat) : Word :=
  BitVec.ofNat 32 (o.tag * 2 ^ 28 + ia.val * 2 ^ 25 + imm)

/-- The encoder (R60): unused register fields and bits 27 to 9 of format R3 are 0. -/
def encode : Instr → Word
  | .cmov a b c => encodeR3 .cmov a b c
  | .aidx a b c => encodeR3 .aidx a b c
  | .aupd a b c => encodeR3 .aupd a b c
  | .add a b c => encodeR3 .add a b c
  | .mul a b c => encodeR3 .mul a b c
  | .div a b c => encodeR3 .div a b c
  | .nand a b c => encodeR3 .nand a b c
  | .halt => encodeR3 .halt 0 0 0
  | .alloc b c => encodeR3 .alloc 0 b c
  | .free c => encodeR3 .free 0 0 c
  | .output c => encodeR3 .output 0 0 c
  | .input c => encodeR3 .input 0 0 c
  | .loadp b c => encodeR3 .loadp 0 b c
  | .ldi ia imm => encodeLI .ldi ia imm

/-! ## Bits the decoder examines -/

/-- The bits an operation's format and used fields examine (R57): the tag and the fields of R55's column. -/
def Op.mask : Op → Word
  | .cmov | .aidx | .aupd | .add | .mul | .div | .nand => 0xF00001FF
  | .halt => 0xF0000000
  | .alloc | .loadp => 0xF000003F
  | .free | .output | .input => 0xF0000007
  | .ldi => 0xFFFFFFFF

/-- The bits of `w` that are examined; of a malformed word the tag alone (R56, R57). -/
def examined (w : Word) : Word :=
  match opOfTag (fieldOp w) with
  | some o => o.mask
  | none => 0xF0000000

/-- A canonical word: every unexamined bit is 0 (R57, R60). -/
def canonical (w : Word) : Bool := w &&& examined w == w

end Sys2Proof
end

