-- ==== Sys2Proof/Config.lean ====
section
/-! DEFINITION. The parameters of the core (R5 of 00_scope.md), each in one named place. -/

namespace Sys2Proof.Config

/-- `MAX_HANDLES` takes this value unless a machine is given another (R5, D6). -/
def defaultMaxHandles : Nat := 65536

/-- The largest length of an array, and so of a boot image, `MAX_LEN` (R5, D15, D25). -/
def maxLen : Nat := 2 ^ 32 - 1

/-- The largest value the console boundary carries, `BYTE_MAX` (R5). -/
def byteMax : Word := 255

/-- The word Input writes at end of stream, `EOS_WORD` (R5). -/
def eosWord : Word := 0xFFFFFFFF

/-- The parameters R5 leaves to the implementation. They are carried beside the state, so that every
statement about a state is a statement about every value of them (R44: "takes `S` as an argument and
proves its claims for every `S`"; log 3). No step writes them. -/
structure Params where
  /-- `MAX_HANDLES`: the number of slots of the array table (R5, R15, D6). -/
  maxHandles : Nat
  /-- `STORE_CAPACITY_WORDS` (R5, R44, D5, OPEN): `none` is `unbounded`. -/
  storeCapacityWords : Option Nat
  deriving DecidableEq, Repr

/-- The defaults of R5. -/
def Params.default : Params := ⟨defaultMaxHandles, none⟩

end Sys2Proof.Config
end

