-- ==== Sys2Proof/Machine/State.lean ====
section
/-! DEFINITION. The state of the core (10_state.md), as plain data, the parameters and the console boundary beside it,
the reasons a step does not exist, and the state after reset. -/

namespace Sys2Proof.Machine

/-- The seven fault kinds of the hardware, in the order of their codes (R170 of 60_exceptions.md). -/
inductive FaultKind where
  /-- Code 1: "handle unallocated, out of range, or is the reserved handle 0 where a non-zero handle is required". -/
  | invalidHandle
  /-- Code 2: "offset ≥ array length", by AIDX, AUPD and the fetch. -/
  | outOfBoundsOffset
  /-- Code 3: DIV with a zero divisor. -/
  | divisionByZero
  /-- Code 4: "value > 255 at Output". -/
  | outOfRangeOutput
  /-- Code 5: the console answered a value above 255. -/
  | outOfRangeInput
  /-- Code 6: no free handle, or with a finite storage capacity no room. -/
  | capacityExhausted
  /-- Code 7: "decoded operation tag outside the 14 defined values". -/
  | malformedOperation
  deriving DecidableEq, Repr

/-- The engine condition (R17 of 10_state.md): the only control state (R18). -/
inductive Status where
  | running
  | halted
  | faulted (k : FaultKind)
  deriving DecidableEq, Repr

/-- One answer of the console to one input request (R153 of 45_interfaces.md). The value is a whole word, wider than
the 8 bits of `CONS_IN`, so that the defensive OutOfRangeInput arm of R141 has a meaning (D23, log 5). -/
inductive ConsoleAnswer where
  | byte (v : Word)
  | endOfStream
  deriving DecidableEq, Repr

/-- What the console does with a request once its listed answers are used up. -/
inductive AtEnd where
  /-- It answers `EndOfStream`, to this and every later request. -/
  | endOfStream
  /-- It does not answer: Input holds (R142). -/
  | silent
  deriving DecidableEq, Repr

/-- The console boundary, outside the core (R152, R153): its coming answers, and what has crossed (R158; log 4). -/
structure Console where
  /-- The answers to the coming requests, in order. -/
  answers : List ConsoleAnswer
  /-- What follows them. -/
  atEnd : AtEnd
  /-- The bytes put out, in order. -/
  output : List Byte
  /-- The number of requests answered. -/
  requests : Nat
  deriving DecidableEq, Repr

/-- An allocated array `Alloc(len, buf)` (R15). `cells` lists the non-zero words by rising offset; every other word of
`buf` is 0 (R43: "zero-initialized at allocation"). -/
structure Arr where
  len : Word
  cells : List (Nat × Word)
  deriving DecidableEq, Repr

/-- The array table `T` (R15): the allocated slots by rising handle; every slot not listed is Free (log 1). -/
abbrev Memory := List (Nat × Arr)

/-- The whole state. `regs`, `pc`, `table` and `status` are the spec's tuple (10_state.md); `params` and `console` stand
beside it (R5, R150). -/
structure State where
  /-- `x[0]` to `x[7]` (R10). -/
  regs : Vector Word 8
  /-- The program counter, an index of words of handle 0 (R13). -/
  pc : Word
  /-- The array table (R15). -/
  table : Memory
  /-- The engine condition (R17). -/
  status : Status
  /-- `MAX_HANDLES` and `STORE_CAPACITY_WORDS` (R5); no step writes them. -/
  params : Config.Params
  /-- The console boundary (R152, R153). -/
  console : Console
  deriving DecidableEq, Repr

/-- Why no step exists. The hardware's own faults are not here: taking one is a step, to a state whose status is
`Status.faulted` (R171). -/
inductive Fault where
  /-- Raised by `step` when the status is Halted: "No state changes in a terminal state" (R71). Safe: the hardware
  takes no step either. -/
  | halted
  /-- Raised by `step` when the status is Faulted(K) (R71). Safe: the hardware takes no step either. -/
  | stopped (k : FaultKind)
  /-- Raised by IN while the console has not answered (R142, D11): the step is not enabled yet. It is a hold, neither a
  halt nor a fault of the machine. Safe: the hardware does nothing either until the answer comes. -/
  | inputHold
  /-- Raised by `State.boot` and `State.assertReset`, never by `step`: the image on `BOOT` exceeds the storage, or is no
  image of R151 at all, and "cannot be booted" (R201, log 10). Safe: there is no state after such a boot. -/
  | cannotBoot
  deriving DecidableEq, Repr

/-- Why an instruction has no meaning in the model. -/
inductive Refusal where
  /-- Raised by an arm of `exec` for an instruction without a meaning. Safe, and unused: every one has its meaning. -/
  | notModelled (mnemonic : String)
  deriving DecidableEq, Repr

/-- The state after reset (R25, R200): registers 0, `pc` 0, handle 0 the boot image, every other slot free, Running.
The image and the console are inputs of the hardware; here the image is the empty one (log 2) and the console has no
bytes to give (log 4). `State.boot` is the boot of any image. -/
def State.reset : State where
  regs := Vector.replicate 8 0
  pc := 0
  table := [(0, ⟨0, []⟩)]
  status := .running
  params := Config.Params.default
  console := ⟨[], .endOfStream, [], 0⟩

end Sys2Proof.Machine
end

