-- ==== Sys2Proof/Machine/Ops.lean ====
section
/-! DEFINITION. The operations every instruction is written with: registers and `pc`, taking a fault, the array table
and its two access primitives, the allocator, the program replacement, the console, and the instruction fetch. -/

namespace Sys2Proof.Machine

/-! ## Registers and the program counter (10_state.md) -/

/-- `x[r]` (R7, R11: every register alike, none hard-wired). -/
def State.reg (s : State) (r : Reg) : Word := s.regs[r]

/-- `x[r] <- v` (R7). -/
def State.setReg (s : State) (r : Reg) (v : Word) : State := { s with regs := s.regs.set r v }

/-- `pc <- target` (R7). -/
def State.setPc (s : State) (target : Word) : State := { s with pc := target }

/-- `pc <- pc + 1`, the increment before decode (R73). -/
def State.advancePc (s : State) : State := s.setPc (s.pc + 1)

/-! ## Faults (60_exceptions.md)

There is no return from a fault (R174), so nothing stands beside `raise`. -/

/-- `raise K`, the whole of "trap entry": the status becomes Faulted(K) and nothing else is written (R171). -/
def State.raise (s : State) (k : FaultKind) : State := { s with status := .faulted k }

/-- How an operation ends: on success in the state it computed, on a fault in the state it started from with the fault
taken (R76: every check precedes every write). -/
def State.finish (s : State) (r : Except FaultKind State) : Host.Outcome State Fault Refusal :=
  match r with
  | .ok t => .next t
  | .error k => .next (s.raise k)

/-! ## Sparse tables: lists of (key, value), keys rising -/

/-- The value listed for a key. -/
def find {α : Type} (k : Nat) : List (Nat × α) → Option α
  | [] => none
  | (j, v) :: l => if j = k then some v else find k l

/-- List a value for a key, in place of any listed before. -/
def put {α : Type} (k : Nat) (v : α) : List (Nat × α) → List (Nat × α)
  | [] => [(k, v)]
  | (j, w) :: l => if k < j then (k, v) :: (j, w) :: l else if k = j then (k, v) :: l else (j, w) :: put k v l

/-- Unlist a key. -/
def del {α : Type} (k : Nat) : List (Nat × α) → List (Nat × α)
  | [] => []
  | (j, w) :: l => if j = k then del k l else (j, w) :: del k l

/-- The keys rise strictly, so none is listed twice. -/
abbrev Rising {α : Type} (l : List (Nat × α)) : Prop := (l.map Prod.fst).Pairwise (· < ·)

/-! ## Arrays (R15, R43) -/

/-- A zero-filled array of `n` words (R104). -/
def Arr.zeros (n : Word) : Arr := ⟨n, []⟩

/-- Word `o` of the buffer; a word not listed is 0. -/
def Arr.get (a : Arr) (o : Word) : Word := (find o.toNat a.cells).getD 0

/-- Store a word, all 32 bits; 0 is stored by unlisting it, so that equal buffers are equal data. -/
def Arr.set (a : Arr) (o v : Word) : Arr :=
  { a with cells := if v = 0 then del o.toNat a.cells else put o.toNat v a.cells }

/-- The cells of a sequence of words laid from offset `i` on. -/
def cellsOfWords (i : Nat) : List Word → List (Nat × Word)
  | [] => []
  | w :: ws => if w = 0 then cellsOfWords (i + 1) ws else (i, w) :: cellsOfWords (i + 1) ws

/-- The array of a sequence of words, verbatim (R151). -/
def Arr.ofWords (ws : List Word) : Arr := ⟨BitVec.ofNat 32 ws.length, cellsOfWords 0 ws⟩

/-- The canonical form of an array: offsets rise, lie below the length, and no listed word is 0. -/
abbrev Arr.wf (a : Arr) : Prop := Rising a.cells ∧ ∀ e ∈ a.cells, e.1 < a.len.toNat ∧ e.2 ≠ 0

/-- The canonical form of the array table: handles rise, and every array is canonical. -/
abbrev Memory.wf (m : Memory) : Prop := Rising m ∧ ∀ e ∈ m, e.2.wf

/-! ## The array table and the access primitives (20_memory.md) -/

/-- The array of a handle, when the handle is allocated: `h < MAX_HANDLES` and `T[h]` is `Alloc(..)` (R7, R107). -/
def State.array (s : State) (h : Word) : Option Arr :=
  if h.toNat < s.params.maxHandles then find h.toNat s.table else none

/-- `MemRead((h, o), 1)` (R33). -/
def State.memRead (s : State) (h o : Word) : Except FaultKind Word :=
  match s.array h with
  | none => .error .invalidHandle
  | some a => if a.len ≤ o then .error .outOfBoundsOffset else .ok (a.get o)

/-- `MemWrite((h, o), 1, v)` (R34). -/
def State.memWrite (s : State) (h o v : Word) : Except FaultKind State :=
  match s.array h with
  | none => .error .invalidHandle
  | some a =>
    if a.len ≤ o then .error .outOfBoundsOffset
    else .ok { s with table := put h.toNat (a.set o v) s.table }

/-- The words of storage in use: the sum of `T[h].len` over all allocated `h` (R44). -/
def Memory.used (m : Memory) : Nat := (m.map fun e => e.2.len.toNat).sum

/-- A total of words does not exceed `STORE_CAPACITY_WORDS` (R44). -/
def State.fits (s : State) (total : Nat) : Bool :=
  match s.params.storeCapacityWords with
  | none => true
  | some cap => decide (total ≤ cap)

/-! ## The handle allocator (42_array_ops.md) -/

/-- The first handle not listed in `m`, of the `n` handles from `h` on. -/
def firstFree (m : Memory) : (n h : Nat) → Option Nat
  | 0, _ => none
  | n + 1, h =>
    match find h m with
    | none => some h
    | some _ => firstFree m n (h + 1)

/-- The minimum of the free pool, the free handles from 1 to `MAX_HANDLES` - 1 (R16, R104). -/
def State.lowestFree (s : State) : Option Nat := firstFree s.table (s.params.maxHandles - 1) 1

/-- `Allocate(n)` (R104): the lowest free handle, now naming a zero-filled array of `n` words. -/
def State.allocate (s : State) (n : Word) : Except FaultKind (Word × State) :=
  match s.lowestFree with
  | none => .error .capacityExhausted
  | some h =>
    if s.fits (s.table.used + n.toNat) then
      .ok (BitVec.ofNat 32 h, { s with table := put h (Arr.zeros n) s.table })
    else .error .capacityExhausted

/-- `Deallocate(h)` (R106): handle 0, a handle out of range and a free handle are refused alike. -/
def State.deallocate (s : State) (h : Word) : Except FaultKind State :=
  if h = 0 then .error .invalidHandle
  else
    match s.array h with
    | none => .error .invalidHandle
    | some _ => .ok { s with table := del h.toNat s.table }

/-! ## The self-load protocol (43_control_ops.md) -/

/-- Handle 0's recorded length, 0 when it names no array (R24: it always does). -/
def State.programLen (s : State) : Nat :=
  match find 0 s.table with
  | none => 0
  | some a => a.len.toNat

/-- The check of LOADP from a source `h` other than 0 (R121, `S_LP_CHECK` of R123): allocated, and its copy fits in
place of the old program (R44). -/
def State.loadSource (s : State) (h : Word) : Except FaultKind Arr :=
  match s.array h with
  | none => .error .invalidHandle
  | some a =>
    if s.fits (s.table.used - s.programLen + a.len.toNat) then .ok a else .error .capacityExhausted

/-- `Replace0(len, buf)` (R122): handle 0 becomes an array of its own with the given length and contents; the old
buffer is gone. -/
def State.replace0 (s : State) (a : Arr) : State :=
  { s with table := put 0 ⟨a.len, a.cells⟩ s.table }

/-! ## The console (44_console_ops.md, 45_interfaces.md) -/

/-- `ConsoleOut(b)`: one byte, taken at once (R152). -/
def State.consoleOut (s : State) (b : Byte) : State :=
  { s with console := { s.console with output := s.console.output ++ [b] } }

/-- The console's answer to one request and the console after it; none while it has not answered (R153). -/
def Console.take (k : Console) : Option (ConsoleAnswer × Console) :=
  match k.answers with
  | a :: rest => some (a, { k with answers := rest, requests := k.requests + 1 })
  | [] =>
    match k.atEnd with
    | .endOfStream => some (.endOfStream, { k with requests := k.requests + 1 })
    | .silent => none

/-- The word an answer gives Input, or the defensive fault (R141). -/
def ConsoleAnswer.word : ConsoleAnswer → Except FaultKind Word
  | .endOfStream => .ok Config.eosWord
  | .byte v => if Config.byteMax < v then .error .outOfRangeInput else .ok v

/-! ## Fetch (40_engine_cycle.md) -/

/-- The fetch check and the fetch: `MemRead((0, pc), 1)` (R72). -/
def State.fetch (s : State) : Except FaultKind Word := s.memRead 0 s.pc

/-- `s` with one instruction word placed where the next fetch reads it: in handle 0 at `pc`, the program lengthened as
far as that takes, the engine running. A `pc` of 2^32 - 1 can never fetch (R14), so it is taken to 0 (log 2). -/
def State.placeWord (s : State) (w : Word) : State :=
  let p : Word := if s.pc = 0xFFFFFFFF then 0 else s.pc
  let a : Arr := (find 0 s.table).getD (Arr.zeros 0)
  let longer : Arr := { a with len := if a.len ≤ p then p + 1 else a.len }
  { s with
    pc := p
    table := put 0 (longer.set p w) s.table
    status := .running
    params := { s.params with maxHandles := max 1 s.params.maxHandles } }

end Sys2Proof.Machine
end

