-- ==== Sys2Proof/Machine/Operands.lean ====
section
/-! DEFINITION. The operand forms (R54 of 30_encoding.md): a register named by a 3-bit index (`State.reg`,
`State.setReg`), the one immediate, and the one addressing mode, a pair of registers. -/

namespace Sys2Proof.Machine

/-- The value LDI loads: `zext_32` of the 25-bit field (R54, R95). Bits 31 to 25 are 0 whatever the number. -/
def immOperand (imm : Nat) : Word := (BitVec.ofNat 25 imm).setWidth 32

/-- The effective address of an array access: the pair (handle, offset) held by two registers, with no displacement,
scaling or update (R100, R101). -/
def State.pairOperand (s : State) (h o : Reg) : Word × Word := (s.reg h, s.reg o)

end Sys2Proof.Machine
end

