-- ==== Sys2Proof/Machine/Flags.lean ====
section
/-! DEFINITION. There are no flags (R19 of 10_state.md): no operation writes a status bit. What stands here is what an
instruction computes on words instead: the arithmetic results, their carry and high half discarded (R96 of
41_register_ops.md), and the conditions it tests on whole registers. -/

namespace Sys2Proof.Machine

/-- `(x + y) mod 2^32`; the carry out of bit 31 is discarded (R91). -/
def addWord (x y : Word) : Word := BitVec.ofNat 32 (x.toNat + y.toNat)

/-- `(x * y) mod 2^32`; the high half of the product is discarded (R92). -/
def mulWord (x y : Word) : Word := BitVec.ofNat 32 (x.toNat * y.toNat)

/-- `x div y`, unsigned floor division; a zero divisor faults (R93). -/
def divWord (x y : Word) : Except FaultKind Word :=
  if y = 0 then .error .divisionByZero else .ok (BitVec.ofNat 32 (x.toNat / y.toNat))

/-- `~(x & y)`, bit by bit (R94). -/
def nandWord (x y : Word) : Word := ~~~(x &&& y)

/-- The condition of CMOV: the whole word is not zero (R90). -/
def condHolds (x : Word) : Bool := decide (x ≠ 0)

/-- The byte OUT emits, `v[7:0]`, when the whole word is at most 255 (R140). -/
def outByte (v : Word) : Except FaultKind Byte :=
  if Config.byteMax < v then .error .outOfRangeOutput else .ok (v.setWidth 8)

end Sys2Proof.Machine
end

