-- ==== Sys2Proof/Machine/ArrayOps.lean ====
section
/-! DEFINITION. The array operations (42_array_ops.md): AIDX, AUPD, ALLOC, FREE. A handle is the value of a register,
looked up in the table (R37). -/

namespace Sys2Proof.Machine

/-- AIDX (R100): the pair is (`x[B]`, `x[C]`). -/
def execAidx (a b c : Reg) (s : State) : Host.Outcome State Fault Refusal :=
  let p := s.pairOperand b c
  s.finish ((s.memRead p.1 p.2).map (s.setReg a))

/-- AUPD (R101): the pair is (`x[A]`, `x[B]`), the value `x[C]`. -/
def execAupd (a b c : Reg) (s : State) : Host.Outcome State Fault Refusal :=
  let p := s.pairOperand a b
  s.finish (s.memWrite p.1 p.2 (s.reg c))

/-- ALLOC (R102): the length is read before `x[B]` receives the handle. -/
def execAlloc (b c : Reg) (s : State) : Host.Outcome State Fault Refusal :=
  s.finish ((s.allocate (s.reg c)).map fun r => r.2.setReg b r.1)

/-- FREE (R103). -/
def execFree (c : Reg) (s : State) : Host.Outcome State Fault Refusal :=
  s.finish (s.deallocate (s.reg c))

end Sys2Proof.Machine
end

