-- ==== Sys2Proof/Machine/ConsoleOps.lean ====
section
/-! DEFINITION. The console operations (44_console_ops.md): OUT and IN. -/

namespace Sys2Proof.Machine

/-- OUT (R140). -/
def execOutput (c : Reg) (s : State) : Host.Outcome State Fault Refusal :=
  s.finish ((outByte (s.reg c)).map s.consoleOut)

/-- IN (R141): the answer is consumed, then its word is written or the defensive fault taken. Without an answer the step
is not enabled: the hold of R142. -/
def execInput (c : Reg) (s : State) : Host.Outcome State Fault Refusal :=
  match s.console.take with
  | none => .fault .inputHold
  | some (a, k) =>
    let asked : State := { s with console := k }
    asked.finish (a.word.map (asked.setReg c))

end Sys2Proof.Machine
end

