-- ==== Sys2Proof/Machine/ControlOps.lean ====
section
/-! DEFINITION. Engine control (43_control_ops.md): HALT and LOADP, the only control transfer. -/

namespace Sys2Proof.Machine

/-- HALT (R120). -/
def execHalt (s : State) : Host.Outcome State Fault Refusal :=
  .next { s with status := .halted }

/-- LOADP (R121): source 0 is a jump and copies nothing; another source replaces the program first. The target is not
checked (R124). -/
def execLoadp (b c : Reg) (s : State) : Host.Outcome State Fault Refusal :=
  if s.reg b = 0 then .next (s.setPc (s.reg c))
  else s.finish ((s.loadSource (s.reg b)).map fun a => (s.replace0 a).setPc (s.reg c))

end Sys2Proof.Machine
end

