-- ==== Sys2Proof/Machine/RegisterOps.lean ====
section
/-! DEFINITION. The register operations (41_register_ops.md): CMOV, ADD, MUL, DIV, NAND, LDI. `pc` is already advanced
when a meaning runs (R70). -/

namespace Sys2Proof.Machine

/-- CMOV (R90). -/
def execCmov (a b c : Reg) (s : State) : Host.Outcome State Fault Refusal :=
  if condHolds (s.reg c) then .next (s.setReg a (s.reg b)) else .next s

/-- ADD (R91). -/
def execAdd (a b c : Reg) (s : State) : Host.Outcome State Fault Refusal :=
  .next (s.setReg a (addWord (s.reg b) (s.reg c)))

/-- MUL (R92). -/
def execMul (a b c : Reg) (s : State) : Host.Outcome State Fault Refusal :=
  .next (s.setReg a (mulWord (s.reg b) (s.reg c)))

/-- DIV (R93). -/
def execDiv (a b c : Reg) (s : State) : Host.Outcome State Fault Refusal :=
  s.finish ((divWord (s.reg b) (s.reg c)).map (s.setReg a))

/-- NAND (R94). -/
def execNand (a b c : Reg) (s : State) : Host.Outcome State Fault Refusal :=
  .next (s.setReg a (nandWord (s.reg b) (s.reg c)))

/-- LDI (R95). -/
def execLdi (ia : Reg) (imm : Nat) (s : State) : Host.Outcome State Fault Refusal :=
  .next (s.setReg ia (immOperand imm))

end Sys2Proof.Machine
end

