-- ==== Sys2Proof/Machine/Step.lean ====
section
/-! DEFINITION. The step of the engine (R70 of 40_engine_cycle.md). -/

namespace Sys2Proof.Machine

/-- One step: the fetch check and fetch (R72), the increment of `pc` (R73), decode (R74), dispatch and execute (R75).
A step exists only while the status is Running (R71). -/
def step (s : State) : Host.Outcome State Fault Refusal :=
  match s.status with
  | .halted => .fault .halted
  | .faulted k => .fault (.stopped k)
  | .running =>
    match s.fetch with
    | .error k => .next (s.raise k)
    | .ok w =>
      match decode w with
      | .error _ => .next (s.advancePc.raise .malformedOperation)
      | .ok i => exec i s.advancePc

/-- `s` with an instruction of the opcode table placed where `step` fetches its next one. It stands for the load of a
program: the boot image is supplied from outside (R151, log 2). -/
def State.withFetchWord (s : State) (nbits w : Nat) : State := s.placeWord (BitVec.ofNat 32 (w % 2 ^ nbits))

end Sys2Proof.Machine
end

