-- ==== Sys2Proof/Machine/Interfaces.lean ====
section
/-! DEFINITION. What crosses the boundary of the core (45_interfaces.md): BOOT, RESET, the console's answers, STATUS, and
what a run shows outside. None of it is a step of the engine. -/

namespace Sys2Proof.Machine

/-- The reset state for a boot image (R200, R151): `State.reset` is this with the empty image. -/
def State.bootState (params : Config.Params) (image : List Word) (console : Console) : State where
  regs := Vector.replicate 8 0
  pc := 0
  table := [(0, Arr.ofWords image)]
  status := .running
  params := params
  console := console

/-- `image` can be booted: it has at most `MAX_LEN` words (R151, D15) and fits the storage (R44, R201). -/
def State.bootable (s : State) (image : List Word) : Bool :=
  decide (image.length ≤ Config.maxLen) && s.fits image.length

/-- The boot of an image (R200, R201). An image longer than the storage "cannot be booted": there is no state after it,
and the stop is named (log 10). -/
def State.boot (params : Config.Params) (image : List Word) (console : Console) : Host.Outcome State Fault Refusal :=
  let t := State.bootState params image console
  if t.bootable image then .next t else .fault .cannotBoot

/-- `RESET` asserted in any state with `image` on `BOOT` (R155, R201): nothing of the old state survives. The parameters
are the machine's own, and the console is outside: "Bytes already put out stay put out". -/
def State.assertReset (s : State) (image : List Word) : Host.Outcome State Fault Refusal :=
  State.boot s.params image s.console

/-- The console comes to have one more answer (R153): what lifts a hold (R142). -/
def State.deliver (s : State) (a : ConsoleAnswer) : State :=
  { s with console := { s.console with answers := s.console.answers ++ [a] } }

/-- The code of a fault kind, 1 to 7 (R170, D7). -/
def FaultKind.code : FaultKind → BitVec 3
  | .invalidHandle => 1
  | .outOfBoundsOffset => 2
  | .divisionByZero => 3
  | .outOfRangeOutput => 4
  | .outOfRangeInput => 5
  | .capacityExhausted => 6
  | .malformedOperation => 7

/-- The numeric form of `STATUS`: the 2-bit `state` and the 3-bit `fault_code` (R154). -/
def Status.port : Status → BitVec 2 × BitVec 3
  | .running => (0, 0)
  | .halted => (1, 0)
  | .faulted k => (2, k.code)

/-- What the outside sees of a run so far (R158): the bytes put out, the number of input requests, and the status. -/
structure Observation where
  output : List Byte
  requests : Nat
  status : Status
  deriving DecidableEq, Repr

/-- The observation of a state (R158). -/
def State.observe (s : State) : Observation := ⟨s.console.output, s.console.requests, s.status⟩

end Sys2Proof.Machine
end

