-- ==== Sys2Proof/Machine/Control.lean ====
section
/-! DEFINITION. The control states of R78 (40_engine_cycle.md) and R123 (43_control_ops.md), as a machine finer than
`step`: what the hardware passes through inside one step. The names are D24's. They are not architectural: nothing of
them is in `State`, and `step` does not use them. -/

namespace Sys2Proof.Machine

/-- A control state, with what an implementation latches in it (R21: nothing of it survives the step). -/
inductive Ctl where
  /-- `S_RESET`, with the image on `BOOT`. -/
  | sReset (image : List Word)
  /-- `S_FETCH`. -/
  | sFetch
  /-- `S_DECODE`, with the fetched word. -/
  | sDecode (w : Word)
  /-- `S_EXEC`, with the decoded instruction; none for a tag of 14 or 15. -/
  | sExec (i : Option Instr)
  /-- `S_INWAIT`: IN waits for the console. -/
  | sInWait (c : Reg)
  /-- `S_LP_CHECK`. -/
  | sLpCheck (b c : Reg)
  /-- `S_LP_COPY`, with the source handle and the target. -/
  | sLpCopy (h o : Word)
  /-- `S_LP_COMMIT`, with the duplicate and the target. -/
  | sLpCommit (new : Arr) (o : Word)
  /-- `S_LP_SETPC`, with the target. -/
  | sLpSetPc (o : Word)
  /-- `S_HALTED`. -/
  | sHalted
  /-- `S_FAULTED`. -/
  | sFaulted (k : FaultKind)
  deriving DecidableEq, Repr

/-- A state of the finer machine: the control state and the architectural state. -/
structure Micro where
  ctl : Ctl
  st : State
  deriving DecidableEq, Repr

/-- The control state at the end of a step: `S_FETCH`, `S_HALTED` or `S_FAULTED`, as the status says (R78). -/
def Status.ctl : Status → Ctl
  | .running => .sFetch
  | .halted => .sHalted
  | .faulted k => .sFaulted k

/-- The end of a step in state `s`. -/
def State.settle (s : State) : Micro := ⟨s.status.ctl, s⟩

/-- The end of an operation; a hold has none, and an image that cannot be booted has none. -/
def settleOutcome : Host.Outcome State Fault Refusal → Option Micro
  | .next t => some t.settle
  | .fault _ => none
  | .refused _ => none

/-- `S_EXEC` (R78): IN goes on to wait, LOADP to its own states, every other operation completes here. -/
def execStage (i : Instr) (s : State) : Option Micro :=
  match i with
  | .input c => some ⟨.sInWait c, s⟩
  | .loadp b c => some ⟨.sLpCheck b c, s⟩
  | .cmov _ _ _ | .aidx _ _ _ | .aupd _ _ _ | .add _ _ _ | .mul _ _ _ | .div _ _ _ | .nand _ _ _
  | .halt | .alloc _ _ | .free _ | .output _ | .ldi _ _ => settleOutcome (exec i s)

/-- `S_LP_CHECK` (R123): read `s = x[B]` and `o = x[C]`; the jump case, or the checks of the source. -/
def lpCheck (b c : Reg) (s : State) : Micro :=
  if s.reg b = 0 then ⟨.sLpSetPc (s.reg c), s⟩
  else
    match s.loadSource (s.reg b) with
    | .error k => (s.raise k).settle
    | .ok _ => ⟨.sLpCopy (s.reg b) (s.reg c), s⟩

/-- One move of the finer machine (R78, R123); none in `S_HALTED` and `S_FAULTED`, none in `S_INWAIT` until the console
answers, and none from `S_RESET` with an image that cannot be booted (R201). -/
def micro (m : Micro) : Option Micro :=
  match m.ctl with
  | .sReset image => settleOutcome (m.st.assertReset image)
  | .sFetch =>
    match m.st.fetch with
    | .error k => some (m.st.raise k).settle
    | .ok w => some ⟨.sDecode w, m.st.advancePc⟩
  | .sDecode w => some ⟨.sExec (decode w).toOption, m.st⟩
  | .sExec none => some (m.st.raise .malformedOperation).settle
  | .sExec (some i) => execStage i m.st
  | .sInWait c => settleOutcome (exec (.input c) m.st)
  | .sLpCheck b c => some (lpCheck b c m.st)
  | .sLpCopy h o => (m.st.array h).map fun a => ⟨.sLpCommit a o, m.st⟩
  | .sLpCommit new o => some ⟨.sLpSetPc o, m.st.replace0 new⟩
  | .sLpSetPc o => some (m.st.setPc o).settle
  | .sHalted => none
  | .sFaulted _ => none

/-- `n` moves of the finer machine. -/
def microRun : Nat → Micro → Option Micro
  | 0, m => some m
  | n + 1, m => (micro m).bind (microRun n)

end Sys2Proof.Machine
end

