-- ==== Sys2Proof/Safety.lean ====
section
/-! DEFINITION. The terms the claims are stated in: frames, the fault conditions and the register table of the spec, the
hold, and the invariant of the state. -/

namespace Sys2Proof.Machine

/-! ## Frames -/

/-- `t` is `s` but for the registers listed. -/
structure OnlyRegs (rs : List Reg) (s t : State) : Prop where
  regs : ∀ r, r ∉ rs → t.reg r = s.reg r
  pc : t.pc = s.pc
  table : t.table = s.table
  status : t.status = s.status
  params : t.params = s.params
  console : t.console = s.console

/-- `t` is `s` but for the registers listed and the array table. -/
structure OnlyRegsAndTable (rs : List Reg) (s t : State) : Prop where
  regs : ∀ r, r ∉ rs → t.reg r = s.reg r
  pc : t.pc = s.pc
  status : t.status = s.status
  params : t.params = s.params
  console : t.console = s.console

/-- `t` is `s` but for the registers listed and the console. -/
structure OnlyRegsAndConsole (rs : List Reg) (s t : State) : Prop where
  regs : ∀ r, r ∉ rs → t.reg r = s.reg r
  pc : t.pc = s.pc
  table : t.table = s.table
  status : t.status = s.status
  params : t.params = s.params

/-- `t` is `s` but for the status. -/
structure OnlyStatus (s t : State) : Prop where
  regs : ∀ r, t.reg r = s.reg r
  pc : t.pc = s.pc
  table : t.table = s.table
  params : t.params = s.params
  console : t.console = s.console

/-- `t` is `s` with fault `k` taken and nothing else written (R171). -/
def FaultTaken (k : FaultKind) (s t : State) : Prop := t.status = .faulted k ∧ OnlyStatus s t

/-- `i` is encoded by the word of value `n`, and that word is read as `i` (R60). -/
def EncodesAs (i : Instr) (n : Nat) : Prop := (encode i).toNat = n ∧ decode (encode i) = .ok i

/-! ## The free pool and the storage -/

/-- Handle `h` is in the free pool (R16). -/
def State.InFreePool (s : State) (h : Nat) : Prop :=
  1 ≤ h ∧ h < s.params.maxHandles ∧ find h s.table = none

/-- `h` is the minimum of the free pool (R104). -/
def State.MinFree (s : State) (h : Nat) : Prop := s.InFreePool h ∧ ∀ k, s.InFreePool k → h ≤ k

/-- A total of words is within `STORE_CAPACITY_WORDS` (R44); always, when that is unbounded. -/
def State.Fits (s : State) (total : Nat) : Prop := ∀ cap, s.params.storeCapacityWords = some cap → total ≤ cap

/-- The words ALLOC of `n` words would make used (R44). -/
def State.usedAfterAlloc (s : State) (n : Word) : Nat := s.table.used + n.toNat

/-- The words LOADP of array `a` would make used (R44). -/
def State.usedAfterLoad (s : State) (a : Arr) : Nat := s.table.used - s.programLen + a.len.toNat

/-! ## The tables of the spec -/

/-- The registers an instruction reads in a state (R12). -/
def registersRead (i : Instr) (s : State) : List Reg :=
  match i with
  | .cmov _ b c => if s.reg c = 0 then [c] else [b, c]
  | .aidx _ b c => [b, c]
  | .aupd a b c => [a, b, c]
  | .add _ b c => [b, c]
  | .mul _ b c => [b, c]
  | .div _ b c => [b, c]
  | .nand _ b c => [b, c]
  | .halt => []
  | .alloc _ c => [c]
  | .free c => [c]
  | .output c => [c]
  | .input _ => []
  | .loadp b c => [b, c]
  | .ldi _ _ => []

/-- The registers an instruction may write in a state (R12). -/
def registersWritten (i : Instr) (s : State) : List Reg :=
  match i with
  | .cmov a _ c => if s.reg c = 0 then [] else [a]
  | .aidx a _ _ => [a]
  | .aupd _ _ _ => []
  | .add a _ _ => [a]
  | .mul a _ _ => [a]
  | .div a _ c => if s.reg c = 0 then [] else [a]
  | .nand a _ _ => [a]
  | .halt => []
  | .alloc b _ => [b]
  | .free _ => []
  | .output _ => []
  | .input c => [c]
  | .loadp _ _ => []
  | .ldi ia _ => [ia]

/-- The pair (`h`, `o`) raises `k` when it is accessed: InvalidHandle before OutOfBoundsOffset (R33, R34, R173). -/
def AccessRaises (k : FaultKind) (s : State) (h o : Word) : Prop :=
  (s.array h = none ∧ k = .invalidHandle) ∨ (∃ a, s.array h = some a ∧ a.len ≤ o ∧ k = .outOfBoundsOffset)

/-- The rows of R170's table for the instructions: `i` raises fault `k` when executed in `s`. -/
def Raises (k : FaultKind) (i : Instr) (s : State) : Prop :=
  match i with
  | .cmov _ _ _ => False
  | .aidx _ b c => AccessRaises k s (s.reg b) (s.reg c)
  | .aupd a b _ => AccessRaises k s (s.reg a) (s.reg b)
  | .add _ _ _ => False
  | .mul _ _ _ => False
  | .div _ _ c => s.reg c = 0 ∧ k = .divisionByZero
  | .nand _ _ _ => False
  | .halt => False
  | .alloc _ c =>
    ((∀ h, ¬ s.InFreePool h) ∨ ¬ s.Fits (s.usedAfterAlloc (s.reg c))) ∧ k = .capacityExhausted
  | .free c => (s.reg c = 0 ∨ s.array (s.reg c) = none) ∧ k = .invalidHandle
  | .output c => Config.byteMax < s.reg c ∧ k = .outOfRangeOutput
  | .input _ =>
    ∃ v rest, s.console.take = some (.byte v, rest) ∧ Config.byteMax < v ∧ k = .outOfRangeInput
  | .loadp b _ =>
    s.reg b ≠ 0 ∧
      ((s.array (s.reg b) = none ∧ k = .invalidHandle) ∨
        ∃ a, s.array (s.reg b) = some a ∧ ¬ s.Fits (s.usedAfterLoad a) ∧ k = .capacityExhausted)
  | .ldi _ _ => False

/-! ## Steps -/

/-- The engine is about to execute `i`: Running, and the word at `pc` is fetched and decodes to `i` (R70). -/
def State.AboutToRun (s : State) (i : Instr) : Prop :=
  s.status = .running ∧ ∃ w, s.fetch = .ok w ∧ decode w = .ok i

/-- The core is inside an IN whose answer has not come (R142). -/
def State.Holding (s : State) : Prop := ∃ c, s.AboutToRun (.input c) ∧ s.console.take = none

/-- A console that keeps the contract of `CONS_IN`: no listed answer is above 255 (R153, R157). -/
def Console.KeepsContract (k : Console) : Prop := ∀ v, ConsoleAnswer.byte v ∈ k.answers → v ≤ Config.byteMax

/-- `s` with more bytes already put out and more requests already answered: another past at the console (R158). -/
def State.withPast (s : State) (past : List Byte) (n : Nat) : State :=
  { s with console := { s.console with output := past ++ s.console.output, requests := n + s.console.requests } }

/-- The whole of R170's table: fault `k` is raised by the step from `s`, by the fetch check, at dispatch, or by the
instruction. -/
def FaultCondition (k : FaultKind) (s : State) : Prop :=
  ((∃ x, s.array 0 = some x ∧ x.len ≤ s.pc) ∧ k = .outOfBoundsOffset) ∨
    ∃ w, s.fetch = .ok w ∧
      ((14 ≤ fieldOp w ∧ k = .malformedOperation) ∨ ∃ i, decode w = .ok i ∧ Raises k i s)

/-! ## The invariant -/

/-- What holds at reset and after every step (R15, R24 (I-a), R44), and rules out the states no run reaches. -/
structure Inv (s : State) : Prop where
  /-- Slot 0 exists. -/
  someSlot : 1 ≤ s.params.maxHandles
  /-- A handle fits a register. -/
  slotsAreWords : s.params.maxHandles ≤ 2 ^ 32
  /-- The table is in its one canonical form. -/
  canonicalTable : s.table.wf
  /-- Only slots of the table hold arrays (R15). -/
  slotsInTable : ∀ e ∈ s.table, e.1 < s.params.maxHandles
  /-- (I-a): "handle 0 is always allocated while the engine runs" (R24). -/
  programAllocated : ∃ a, s.array 0 = some a
  /-- The storage in use is within the capacity (R44). -/
  storageWithin : s.Fits s.table.used

end Sys2Proof.Machine
end

