-- ==== Sys2Proof/Certificates/Slice0/Obligations.lean ====
section
/-! DEFINITION. The statements about the model, one per numbered rule or whole-machine property of the spec. -/

open Sys2Proof Sys2Proof.Machine

/-! ## The 14 instructions: encoding, effect, frame, faults

The tag in each encoding is the one its rule gives; that the tags are numbered by the rows of the operation table is the
spec's own decision D1 (log 8). The storage bound of ALLOC and LOADP is its open parameter D5 (log 3), and that an
answer to IN can be above 255 at all is D23 (log 5). -/

/-- R90: CMOV moves when the whole word `x[C]` is not zero, and otherwise changes nothing. -/
def Obligations.CmovMovesWhenNotZero : Prop :=
  ∀ (a b c : Reg) (s : State),
    EncodesAs (.cmov a b c) (0x00000000 + a.val * 64 + b.val * 8 + c.val) ∧
    ∃ t, exec (.cmov a b c) s = .next t ∧ OnlyRegs [a] s t ∧
      t.reg a = if s.reg c ≠ 0 then s.reg b else s.reg a

/-- R91: ADD is addition modulo 2^32, and never fails. -/
def Obligations.AddIsModulo2To32 : Prop :=
  ∀ (a b c : Reg) (s : State),
    EncodesAs (.add a b c) (0x30000000 + a.val * 64 + b.val * 8 + c.val) ∧
    ∃ t, exec (.add a b c) s = .next t ∧ OnlyRegs [a] s t ∧
      (t.reg a).toNat = ((s.reg b).toNat + (s.reg c).toNat) % 2 ^ 32

/-- R92: MUL is the low 32 bits of the unsigned product, and never fails. -/
def Obligations.MulIsLowProduct : Prop :=
  ∀ (a b c : Reg) (s : State),
    EncodesAs (.mul a b c) (0x40000000 + a.val * 64 + b.val * 8 + c.val) ∧
    ∃ t, exec (.mul a b c) s = .next t ∧ OnlyRegs [a] s t ∧
      (t.reg a).toNat = ((s.reg b).toNat * (s.reg c).toNat) % 2 ^ 32

/-- R93: DIV is unsigned floor division; a zero divisor raises DivisionByZero and writes no register. -/
def Obligations.DivIsFloorOrFaults : Prop :=
  ∀ (a b c : Reg) (s : State),
    EncodesAs (.div a b c) (0x50000000 + a.val * 64 + b.val * 8 + c.val) ∧
    (s.reg c ≠ 0 → ∃ t, exec (.div a b c) s = .next t ∧ OnlyRegs [a] s t ∧
      (t.reg a).toNat = (s.reg b).toNat / (s.reg c).toNat) ∧
    (s.reg c = 0 → ∃ t, exec (.div a b c) s = .next t ∧ FaultTaken .divisionByZero s t)

/-- R94: NAND, bit by bit on all 32 bits, and never fails. -/
def Obligations.NandIsBitwise : Prop :=
  ∀ (a b c : Reg) (s : State),
    EncodesAs (.nand a b c) (0x60000000 + a.val * 64 + b.val * 8 + c.val) ∧
    ∃ t, exec (.nand a b c) s = .next t ∧ OnlyRegs [a] s t ∧
      ∀ n, n < 32 → (t.reg a).getLsbD n = !((s.reg b).getLsbD n && (s.reg c).getLsbD n)

/-- R95, R54: LDI loads the 25-bit immediate zero-extended, into the register of bits 27 to 25. -/
def Obligations.LdiZeroExtends : Prop :=
  ∀ (ia : Reg) (imm : Nat) (s : State), imm ≤ 0x01FFFFFF →
    EncodesAs (.ldi ia imm) (0xD0000000 + ia.val * 2 ^ 25 + imm) ∧
    ∃ t, exec (.ldi ia imm) s = .next t ∧ OnlyRegs [ia] s t ∧ (t.reg ia).toNat = imm

/-- R100: AIDX loads the word at the pair (`x[B]`, `x[C]`); InvalidHandle, then OutOfBoundsOffset, leave `x[A]`. -/
def Obligations.AidxLoadsOrFaults : Prop :=
  ∀ (a b c : Reg) (s : State),
    EncodesAs (.aidx a b c) (0x10000000 + a.val * 64 + b.val * 8 + c.val) ∧
    (∀ x, s.array (s.reg b) = some x → s.reg c < x.len →
      ∃ t, exec (.aidx a b c) s = .next t ∧ OnlyRegs [a] s t ∧ t.reg a = x.get (s.reg c)) ∧
    (s.array (s.reg b) = none →
      ∃ t, exec (.aidx a b c) s = .next t ∧ FaultTaken .invalidHandle s t) ∧
    (∀ x, s.array (s.reg b) = some x → x.len ≤ s.reg c →
      ∃ t, exec (.aidx a b c) s = .next t ∧ FaultTaken .outOfBoundsOffset s t)

/-- R101: AUPD stores `x[C]` at the pair (`x[A]`, `x[B]`), changes no register, no other word and no length. -/
def Obligations.AupdStoresOrFaults : Prop :=
  ∀ (a b c : Reg) (s : State),
    EncodesAs (.aupd a b c) (0x20000000 + a.val * 64 + b.val * 8 + c.val) ∧
    (∀ x, s.array (s.reg a) = some x → s.reg b < x.len →
      ∃ t, exec (.aupd a b c) s = .next t ∧ OnlyRegsAndTable [] s t ∧
        t.memRead (s.reg a) (s.reg b) = .ok (s.reg c) ∧
        (∀ h o, (h, o) ≠ s.pairOperand a b → t.memRead h o = s.memRead h o) ∧
        (∀ h, (t.array h).map Arr.len = (s.array h).map Arr.len)) ∧
    (s.array (s.reg a) = none →
      ∃ t, exec (.aupd a b c) s = .next t ∧ FaultTaken .invalidHandle s t) ∧
    (∀ x, s.array (s.reg a) = some x → x.len ≤ s.reg b →
      ∃ t, exec (.aupd a b c) s = .next t ∧ FaultTaken .outOfBoundsOffset s t)

/-- R102, R104, R44: ALLOC gives the lowest free handle, which then names a zero-filled array of `x[C]` words; no other
array changes. CapacityExhausted when no handle is free or the words do not fit. A handle is a word, so the table has at
most 2^32 slots. -/
def Obligations.AllocGivesLowestFree : Prop :=
  ∀ (b c : Reg) (s : State), s.params.maxHandles ≤ 2 ^ 32 →
    EncodesAs (.alloc b c) (0x80000000 + b.val * 8 + c.val) ∧
    (∀ h, s.MinFree h → s.Fits (s.usedAfterAlloc (s.reg c)) →
      ∃ t, exec (.alloc b c) s = .next t ∧ OnlyRegsAndTable [b] s t ∧ (t.reg b).toNat = h ∧
        (∃ x, t.array (t.reg b) = some x ∧ x.len = s.reg c ∧ ∀ o, x.get o = 0) ∧
        ∀ q, q ≠ t.reg b → t.array q = s.array q) ∧
    ((∀ h, ¬ s.InFreePool h) →
      ∃ t, exec (.alloc b c) s = .next t ∧ FaultTaken .capacityExhausted s t) ∧
    (¬ s.Fits (s.usedAfterAlloc (s.reg c)) →
      ∃ t, exec (.alloc b c) s = .next t ∧ FaultTaken .capacityExhausted s t)

/-- R103, R106: FREE makes the slot free and changes nothing else; handle 0, an out-of-range handle and a free one raise
InvalidHandle. -/
def Obligations.FreeReleasesOrFaults : Prop :=
  ∀ (c : Reg) (s : State),
    EncodesAs (.free c) (0x90000000 + c.val) ∧
    (∀ x, s.reg c ≠ 0 → s.array (s.reg c) = some x →
      ∃ t, exec (.free c) s = .next t ∧ OnlyRegsAndTable [] s t ∧ t.array (s.reg c) = none ∧
        t.InFreePool (s.reg c).toNat ∧ ∀ q, q ≠ s.reg c → t.array q = s.array q) ∧
    (s.reg c = 0 ∨ s.params.maxHandles ≤ (s.reg c).toNat ∨ s.array (s.reg c) = none →
      ∃ t, exec (.free c) s = .next t ∧ FaultTaken .invalidHandle s t)

/-- R120: HALT sets the status to Halted and changes nothing else, and no step follows; any word with tag 7 is HALT. -/
def Obligations.HaltEndsTheRun : Prop :=
  EncodesAs .halt 0x70000000 ∧ (∀ w : Word, w.toNat / 2 ^ 28 = 7 → decode w = .ok .halt) ∧
  ∀ s : State, ∃ t, exec .halt s = .next t ∧ t.status = .halted ∧ OnlyStatus s t ∧ step t = .fault .halted

/-- R121, R122, R44: LOADP with source 0 only sets `pc`; with another allocated source that fits, handle 0 becomes a
copy of it and `pc` the target; otherwise InvalidHandle, or with a finite storage CapacityExhausted. -/
def Obligations.LoadpJumpsOrReplaces : Prop :=
  ∀ (b c : Reg) (s : State),
    EncodesAs (.loadp b c) (0xC0000000 + b.val * 8 + c.val) ∧
    (s.reg b = 0 → ∃ t, exec (.loadp b c) s = .next t ∧ t.pc = s.reg c ∧ (∀ r, t.reg r = s.reg r) ∧
      t.table = s.table ∧ t.status = s.status ∧ t.params = s.params ∧ t.console = s.console) ∧
    (∀ x, s.reg b ≠ 0 → s.array (s.reg b) = some x → s.Fits (s.usedAfterLoad x) →
      ∃ t, exec (.loadp b c) s = .next t ∧ t.pc = s.reg c ∧ (∀ r, t.reg r = s.reg r) ∧
        t.array 0 = some x ∧ (∀ h, h ≠ 0 → t.array h = s.array h) ∧
        t.status = s.status ∧ t.params = s.params ∧ t.console = s.console) ∧
    (s.reg b ≠ 0 → s.array (s.reg b) = none →
      ∃ t, exec (.loadp b c) s = .next t ∧ FaultTaken .invalidHandle s t) ∧
    (∀ x, s.reg b ≠ 0 → s.array (s.reg b) = some x → ¬ s.Fits (s.usedAfterLoad x) →
      ∃ t, exec (.loadp b c) s = .next t ∧ FaultTaken .capacityExhausted s t)

/-- R140: OUT emits exactly one byte of value `x[C]` when the whole word is at most 255, and otherwise raises
OutOfRangeOutput and emits none. -/
def Obligations.OutEmitsOneByteOrFaults : Prop :=
  ∀ (c : Reg) (s : State),
    EncodesAs (.output c) (0xA0000000 + c.val) ∧
    ((s.reg c).toNat ≤ 255 → ∃ (t : State) (v : Byte), exec (.output c) s = .next t ∧
      OnlyRegsAndConsole [] s t ∧ v.toNat = (s.reg c).toNat ∧
      t.console = { s.console with output := s.console.output ++ [v] }) ∧
    (255 < (s.reg c).toNat →
      ∃ t, exec (.output c) s = .next t ∧ FaultTaken .outOfRangeOutput s t)

/-- R141: IN writes the answered byte zero-extended, or 0xFFFFFFFF at end of stream; a value above 255 raises
OutOfRangeInput with `x[C]` unchanged and the answer consumed. Without an answer it holds: `StopsAreTerminalOrHold`. -/
def Obligations.InWritesTheAnswer : Prop :=
  ∀ (c : Reg) (s : State),
    EncodesAs (.input c) (0xB0000000 + c.val) ∧
    (∀ k, s.console.take = some (.endOfStream, k) →
      ∃ t, exec (.input c) s = .next t ∧ OnlyRegsAndConsole [c] s t ∧ t.reg c = 0xFFFFFFFF ∧ t.console = k) ∧
    (∀ v k, s.console.take = some (.byte v, k) → v.toNat ≤ 255 →
      ∃ t, exec (.input c) s = .next t ∧ OnlyRegsAndConsole [c] s t ∧ t.reg c = v ∧ t.console = k) ∧
    (∀ v k, s.console.take = some (.byte v, k) → 255 < v.toNat →
      ∃ t, exec (.input c) s = .next t ∧ FaultTaken .outOfRangeInput { s with console := k } t)

/-! ## The step -/

/-- R70, R73: when the word at `pc` decodes to `i`, the step is the execution of `i` with `pc` advanced by one, and the
increment does not wrap. -/
def Obligations.StepRunsDecodedInstruction : Prop :=
  ∀ (s : State) (w : Word) (i : Instr), s.status = .running → s.fetch = .ok w → decode w = .ok i →
    step s = exec i (s.setPc (s.pc + 1)) ∧ (s.pc + 1).toNat = s.pc.toNat + 1

/-- R72: outside handle 0 the step is OutOfBoundsOffset with `pc` not advanced; inside, the word at `pc` is fetched. The
kind of this fault is the spec's decision D2 (log 9). -/
def Obligations.FetchIsChecked : Prop :=
  ∀ (s : State) (x : Arr), s.status = .running → s.array 0 = some x →
    (x.len ≤ s.pc → ∃ t, step s = .next t ∧ FaultTaken .outOfBoundsOffset s t) ∧
    (s.pc < x.len → s.fetch = .ok (x.get s.pc))

/-- R56, R75: a fetched word with tag 14 or 15, whatever its other bits, raises MalformedOperation with `pc` advanced and
nothing else changed; every other word is a valid instruction, and its step raises no MalformedOperation. The value of
`pc` at the fault is the spec's decision D16 (log 9). -/
def Obligations.MalformedTagsFault : Prop :=
  ∀ (s : State) (w : Word), s.status = .running → s.fetch = .ok w →
    (w.toNat / 2 ^ 28 = 14 ∨ w.toNat / 2 ^ 28 = 15 →
      ∃ t, step s = .next t ∧ FaultTaken .malformedOperation (s.setPc (s.pc + 1)) t) ∧
    (w.toNat / 2 ^ 28 ≤ 13 → (∃ i, decode w = .ok i ∧ i.wellFormed = true) ∧
      ∀ t, step s = .next t → t.status ≠ .faulted .malformedOperation)

/-- R71, R142: a step exists exactly while the status is Running and no IN is held. That a held IN is a step not yet
enabled is the spec's decision D11 (log 6). -/
def Obligations.StepExistsIffRunningAndNotHeld : Prop :=
  ∀ s : State, (∃ t, step s = .next t) ↔ (s.status = .running ∧ ¬ s.Holding)

/-- R71, R142: no instruction is refused, and each way of having no step is named for what it is; the stop of RESET is
none of a step. The names are the model's (log 6, log 7). -/
def Obligations.StopsAreTerminalOrHold : Prop :=
  ∀ s : State,
    (∀ r, step s ≠ .refused r) ∧
    (step s = .fault .halted ↔ s.status = .halted) ∧
    (∀ k, step s = .fault (.stopped k) ↔ s.status = .faulted k) ∧
    (step s = .fault .inputHold ↔ s.Holding) ∧ step s ≠ .fault .cannotBoot

/-- R142: a held IN has no step until the console answers, and then completes with the answer. The hold as a step not yet
enabled is the spec's decision D11 (log 6). -/
def Obligations.HoldEndsWithTheAnswer : Prop :=
  ∀ (s : State) (c : Reg) (a : ConsoleAnswer) (v : Word),
    s.AboutToRun (.input c) → s.console.take = none → a.word = .ok v →
    step s = .fault .inputHold ∧
    ∃ t, step (s.deliver a) = .next t ∧ OnlyRegsAndConsole [c] (s.setPc (s.pc + 1)) t ∧ t.reg c = v ∧
      t.console = { answers := [], atEnd := s.console.atEnd, output := s.console.output,
                    requests := s.console.requests + 1 }

/-! ## Encoding -/

/-- R53, R55: words of the spec's table of decoder vectors, each read as the instruction it stands for. The tags are the
spec's decision D1 (log 8). -/
def Obligations.SpecWordsDecode : Prop :=
  decode 0x00000000 = .ok (.cmov 0 0 0) ∧ decode 0x1234ABCD = .ok (.aidx 7 1 5) ∧
  decode 0x2000009C = .ok (.aupd 2 3 4) ∧ decode 0x3FFFFE53 = .ok (.add 1 2 3) ∧
  decode 0x40000053 = .ok (.mul 1 2 3) ∧ decode 0x50000053 = .ok (.div 1 2 3) ∧
  decode 0x600000C0 = .ok (.nand 3 0 0) ∧ decode 0x7ABCDEF0 = .ok .halt ∧
  decode 0x80000011 = .ok (.alloc 2 1) ∧ decode 0x90000002 = .ok (.free 2) ∧
  decode 0xA0000007 = .ok (.output 7) ∧ decode 0xB0000007 = .ok (.input 7) ∧
  decode 0xC00001FF = .ok (.loadp 7 7) ∧ decode 0xD7FFFFFF = .ok (.ldi 3 33554431)

/-- R56, R55: a word is an instruction exactly when its tag is 0 to 13, and then a well-formed one with that tag. The
tags are the spec's decision D1 (log 8). -/
def Obligations.DecodeAcceptsExactlyTags0To13 : Prop :=
  ∀ w : Word, ((∃ i, decode w = .ok i) ↔ w.toNat / 2 ^ 28 ≤ 13) ∧
    ∀ i, decode w = .ok i → i.wellFormed = true ∧ i.op.tag = w.toNat / 2 ^ 28

/-- R57: words that agree on the examined bits are the same instruction. The spec marks it as derived, and as its
decision D22. -/
def Obligations.UnexaminedBitsAreIgnored : Prop :=
  ∀ w v : Word, w &&& examined w = v &&& examined w → decode w = decode v

/-- R60: decoding the encoding of a well-formed instruction gives it back. -/
def Obligations.DecodeOfEncodeIsIdentity : Prop :=
  ∀ i : Instr, i.wellFormed = true → decode (encode i) = .ok i

/-- R60: encoding what a word decodes to gives the word back exactly when its unexamined bits are 0. -/
def Obligations.EncodeOfDecodeIffCanonical : Prop :=
  ∀ (w : Word) (i : Instr), decode w = .ok i → (encode i = w ↔ canonical w = true)

/-! ## The whole machine -/

/-- R12: an instruction writes no register but the one its row lists. -/
def Obligations.RegistersWrittenAsListed : Prop :=
  ∀ (i : Instr) (s t : State), exec i s = .next t → ∀ r, r ∉ registersWritten i s → t.reg r = s.reg r

/-- R12: an instruction reads no register but those its row lists: another value in a register it does not read changes
nothing but that register, and not even that one where a completed instruction writes it. -/
def Obligations.RegistersReadAsListed : Prop :=
  ∀ (i : Instr) (s t : State) (r : Reg) (v : Word), r ∉ registersRead i s → exec i s = .next t →
    ∃ t', exec i (s.setReg r v) = .next t' ∧ OnlyRegs [r] t t' ∧
      (s.status = .running → (∀ k, t.status ≠ .faulted k) → r ∈ registersWritten i s → t'.reg r = t.reg r)

/-- R14: the four rows of the table of `pc` after a step. The values at a fault are the spec's decision D16 (log 9). -/
def Obligations.PcAfterEachStep : Prop :=
  ∀ s t : State, step s = .next t →
    ((∃ k, s.fetch = .error k) → t.pc = s.pc) ∧
    (∀ w, s.fetch = .ok w →
      (∀ b c, decode w = .ok (.loadp b c) → t.status = .running → t.pc = s.reg c) ∧
      (((∀ b c, decode w ≠ .ok (.loadp b c)) ∨ t.status ≠ .running) → t.pc.toNat = s.pc.toNat + 1))

/-- R171, R172: the state a fault leaves. Registers, table and output are as before; the console has lost an item only
by OutOfRangeInput; `pc` is not advanced by the fetch fault and advanced by every other. The values of `pc` are the
spec's decision D16 (log 9). -/
def Obligations.FaultsArePrecise : Prop :=
  ∀ (s t : State) (k : FaultKind), step s = .next t → t.status = .faulted k →
    (∀ r, t.reg r = s.reg r) ∧ t.table = s.table ∧ t.params = s.params ∧
    t.console.output = s.console.output ∧ (k ≠ .outOfRangeInput → t.console = s.console) ∧
    ((∃ k', s.fetch = .error k') → t.pc = s.pc) ∧ (∀ w, s.fetch = .ok w → t.pc = s.pc + 1)

/-- R170: each fault kind is raised exactly on the conditions of the table. The kind of the fetch fault is the spec's
decision D2 (log 9). -/
def Obligations.FaultsRaisedExactlyAsListed : Prop :=
  ∀ (s t : State) (k : FaultKind), Inv s → step s = .next t → (t.status = .faulted k ↔ FaultCondition k s)

/-- R120: the status becomes Halted by a HALT and by nothing else. -/
def Obligations.OnlyHaltHalts : Prop :=
  ∀ s t : State, step s = .next t → (t.status = .halted ↔ s.AboutToRun .halt)

/-- R143, R152: output grows by one byte in a completed OUT and is otherwise unchanged; a step that ends the run puts
nothing out. -/
def Obligations.OutputOnlyByOut : Prop :=
  ∀ s t : State, step s = .next t →
    (t.console.output = s.console.output ∨
      ∃ (c : Reg) (v : Byte), s.AboutToRun (.output c) ∧ v.toNat = (s.reg c).toNat ∧
        t.console.output = s.console.output ++ [v]) ∧
    (∀ c, s.AboutToRun (.output c) → t.status = .running →
      ∃ v : Byte, v.toNat = (s.reg c).toNat ∧ t.console.output = s.console.output ++ [v]) ∧
    (t.status ≠ .running → t.console.output = s.console.output)

/-- R153, R158: a request is made by IN alone, one per instruction, and takes the console's answers in order. The list
of answers is the model's own field (log 4). -/
def Obligations.InputTakesOneAnswerInOrder : Prop :=
  ∀ s t : State, step s = .next t →
    ((∃ c, s.AboutToRun (.input c)) ∧ t.console.requests = s.console.requests + 1 ∧
      ((∃ a, s.console.answers = a :: t.console.answers) ∨
        (s.console.answers = [] ∧ t.console.answers = [] ∧ s.console.atEnd = .endOfStream))) ∨
    ((∀ c, ¬ s.AboutToRun (.input c)) ∧ t.console.requests = s.console.requests ∧
      t.console.answers = s.console.answers)

/-- R153, R170, D23: while the console keeps its contract OutOfRangeInput is not raised, and the contract is kept. The
wide answer is the model's (log 5). -/
def Obligations.NoOutOfRangeInputUnderContract : Prop :=
  ∀ s t : State, s.console.KeepsContract → step s = .next t →
    t.status ≠ .faulted .outOfRangeInput ∧ t.console.KeepsContract

/-- R30, R101, R102, R103, R122: a word of the array space reads differently after a step only if the step is an AUPD to
that pair, an ALLOC or FREE of that handle, or for handle 0 a LOADP from another handle. -/
def Obligations.MemoryChangedOnlyByItsOperations : Prop :=
  ∀ (s t : State) (h o : Word), step s = .next t → t.memRead h o ≠ s.memRead h o →
    (∃ a b c, s.AboutToRun (.aupd a b c) ∧ s.pairOperand a b = (h, o)) ∨
    (∃ b c, s.AboutToRun (.alloc b c) ∧ t.reg b = h) ∨
    (∃ c, s.AboutToRun (.free c) ∧ s.reg c = h) ∨
    (h = 0 ∧ ∃ b c, s.AboutToRun (.loadp b c) ∧ s.reg b ≠ 0)

/-- R109: what the array manager never does. No step changes the length of an allocated array but LOADP that of handle
0; an array is freed by a FREE of its handle alone; a handle but 0 becomes allocated by an ALLOC that returns it alone;
and the handle a completed ALLOC returns is never 0 and was free (in a table of at most 2^32 slots, so that a handle fits
a register). -/
def Obligations.ArrayManagerNeverDoes : Prop :=
  ∀ (s t : State), step s = .next t →
    (∀ h x y, s.array h = some x → t.array h = some y → x.len ≠ y.len →
      h = 0 ∧ ∃ b c, s.AboutToRun (.loadp b c) ∧ s.reg b ≠ 0) ∧
    (∀ h x, s.array h = some x → t.array h = none →
      h ≠ 0 ∧ ∃ c, s.AboutToRun (.free c) ∧ s.reg c = h) ∧
    (∀ h y, h ≠ 0 → s.array h = none → t.array h = some y →
      ∃ b c, s.AboutToRun (.alloc b c) ∧ t.reg b = h) ∧
    (s.params.maxHandles ≤ 2 ^ 32 → ∀ b c, s.AboutToRun (.alloc b c) → t.status = .running →
      t.reg b ≠ 0 ∧ s.array (t.reg b) = none)

/-- R34: a write puts all 32 bits at its pair and changes no other word, no length and no register; with a fault it
changes nothing. -/
def Obligations.MemWriteChangesOneWord : Prop :=
  ∀ (s : State) (h o v : Word),
    (s.array h = none → s.memWrite h o v = .error .invalidHandle) ∧
    ∀ x, s.array h = some x →
      (x.len ≤ o → s.memWrite h o v = .error .outOfBoundsOffset) ∧
      (o < x.len → ∃ t, s.memWrite h o v = .ok t ∧ t.memRead h o = .ok v ∧
        (∀ h' o', (h', o') ≠ (h, o) → t.memRead h' o' = s.memRead h' o') ∧
        (∀ h', (t.array h').map Arr.len = (s.array h').map Arr.len) ∧ OnlyRegsAndTable [] s t)

/-- R107: in a state of the invariant a word is a valid handle of an array exactly when the table holds that array in
its slot, and no word of `MAX_HANDLES` or more is one. -/
def Obligations.ValidHandlesAreAllocatedSlots : Prop :=
  ∀ (s : State) (h : Word), Inv s →
    (∀ x, s.array h = some x ↔ (h.toNat, x) ∈ s.table) ∧
    (s.params.maxHandles ≤ h.toNat → s.array h = none)

/-- R105: an array allocated and freed at once leaves the next allocation the same handle. -/
def Obligations.FreedHandleIsReusedLowestFirst : Prop :=
  ∀ (s t : State) (n h : Word), s.params.maxHandles ≤ 2 ^ 32 → s.allocate n = .ok (h, t) →
    ∃ u, t.deallocate h = .ok u ∧ ∀ m k v, u.allocate m = .ok (k, v) → k = h

/-- R105: "the handle returned does not depend on the order in which handles were freed". The spec marks it as derived.
-/
def Obligations.OrderOfFreeingDoesNotMatter : Prop :=
  ∀ (s t u : State) (h k : Word), h ≠ k → s.deallocate h = .ok t → t.deallocate k = .ok u →
    ∃ t', s.deallocate k = .ok t' ∧ t'.deallocate h = .ok u

/-- R125: after a LOADP from another handle the program and its source are two arrays: a write to either, or a FREE of
the source, leaves the other as it was. -/
def Obligations.LoadedProgramIsIndependent : Prop :=
  ∀ (b c : Reg) (s t : State), s.status = .running → s.reg b ≠ 0 → exec (.loadp b c) s = .next t →
    t.status = .running →
    (∀ o, t.memRead 0 o = t.memRead (s.reg b) o) ∧
    (∀ o v u, t.memWrite (s.reg b) o v = .ok u → ∀ q, u.memRead 0 q = t.memRead 0 q) ∧
    (∀ o v u, t.memWrite 0 o v = .ok u → ∀ q, u.memRead (s.reg b) q = t.memRead (s.reg b) q) ∧
    (∀ u, t.deallocate (s.reg b) = .ok u → ∀ q, u.memRead 0 q = t.memRead 0 q)

/-- R41, R211: an AUPD into the running program at the next word is what the next step fetches. The rule R41 is marked
as derived in part. -/
def Obligations.StoreIsSeenByTheNextFetch : Prop :=
  ∀ (a b c : Reg) (s t : State), s.AboutToRun (.aupd a b c) → s.reg a = 0 → s.reg b = s.pc + 1 →
    step s = .next t → t.status = .running → t.fetch = .ok (s.reg c)

/-- R124: LOADP raises nothing for its offset; an offset outside the program then active is caught by the next fetch,
which raises OutOfBoundsOffset with `pc` equal to the offset. That LOADP does not check is the spec's decision D3 (log
9). -/
def Obligations.LoadpOffsetCaughtAtNextFetch : Prop :=
  ∀ (b c : Reg) (s t : State) (x : Arr), s.AboutToRun (.loadp b c) → step s = .next t →
    t.status = .running → t.array 0 = some x →
    t.pc = s.reg c ∧
    (s.reg c < x.len → t.fetch = .ok (x.get (s.reg c))) ∧
    (x.len ≤ s.reg c → ∃ u, step t = .next u ∧ FaultTaken .outOfBoundsOffset t u)

/-- No step writes the parameters of R5. That they stand in the state is the model's choice (log 3). -/
def Obligations.ParametersNeverChange : Prop :=
  ∀ s t : State, step s = .next t → t.params = s.params

/-- R61: each idiom does what its row says. -/
def Obligations.IdiomsDoAsListed : Prop :=
  ∀ (a b c z n : Reg) (s : State),
    (s.reg z = 0 → ∃ t, exec (.loadp z c) s = .next t ∧ t.pc = s.reg c ∧ t.table = s.table) ∧
    (s.reg n ≠ 0 → ∃ t, exec (.cmov a b n) s = .next t ∧ t.reg a = s.reg b) ∧
    (∃ t, exec (.nand a b b) s = .next t ∧ t.reg a = ~~~ s.reg b) ∧
    (s.reg z = 0 → ∃ t, exec (.nand a z z) s = .next t ∧ t.reg a = 0xFFFFFFFF) ∧
    (s.reg n = 0xFFFFFFFF → ∃ t, exec (.add a a n) s = .next t ∧ t.reg a = s.reg a - 1) ∧
    (decode 0x00000000 = .ok (.cmov 0 0 0) ∧ exec (.cmov 0 0 0) s = .next s)

/-- R158, R152, R153: what has crossed the console before has no influence: with other bytes already out and another
count of requests the step does the same, adding to those. The record of them is the model's own (log 4). -/
def Obligations.PastConsoleTrafficHasNoInfluence : Prop :=
  ∀ (s t : State) (past : List Byte) (n : Nat), step s = .next t →
    step (s.withPast past n) = .next (t.withPast past n)

/-! ## Reset, boot, status -/

/-- R200: RESET, asserted in any state with an image that fits the storage, gives the reset state for the image. That it
may be asserted in any state and that bytes already put out stay is R155, the spec's decision D18. -/
def Obligations.ResetDiscardsAllState : Prop :=
  ∀ (s : State) (image : List Word), 1 ≤ s.params.maxHandles → image.length < 2 ^ 32 → s.Fits image.length →
    ∃ t, s.assertReset image = .next t ∧ (∀ r, t.reg r = 0) ∧ t.pc = 0 ∧ t.status = .running ∧
      (∃ x, t.array 0 = some x ∧ x.len.toNat = image.length ∧
        ∀ (n : Nat) (hn : n < image.length), x.get (BitVec.ofNat 32 n) = image[n]) ∧
      (∀ h, h ≠ 0 → t.array h = none) ∧ t.params = s.params ∧ t.console.output = s.console.output

/-- The reset state of the model. That its image is empty, and that its console has nothing to give, are the model's
choices (log 2, log 4), not the spec's. -/
def Obligations.ResetStateAsDescribed : Prop :=
  (∀ r, State.reset.reg r = 0) ∧ State.reset.pc = 0 ∧ State.reset.status = .running ∧
  State.reset.params = ⟨65536, none⟩ ∧ (∀ h, h ≠ 0 → State.reset.array h = none) ∧
  (∃ x, State.reset.array 0 = some x ∧ x.len = 0) ∧
  State.boot Config.Params.default [] State.reset.console = .next State.reset

/-- The invariant holds at reset. -/
def Obligations.ResetMeetsInvariant : Prop := Inv State.reset

/-- The invariant holds after every RESET there is, of a machine with 1 to 2^32 slots. -/
def Obligations.BootMeetsInvariant : Prop :=
  ∀ (s t : State) (image : List Word), 1 ≤ s.params.maxHandles → s.params.maxHandles ≤ 2 ^ 32 →
    s.assertReset image = .next t → Inv t

/-- R24 (I-a), R15, R44: every step from a state of the invariant, reachable or not, gives one: the table stays
canonical and within its slots, handle 0 allocated, the storage within its capacity. The canonical form is the model's
(log 1). -/
def Obligations.StepKeepsInvariant : Prop :=
  ∀ s t : State, Inv s → step s = .next t → Inv t

/-- R104: at most `MAX_HANDLES` - 1 arrays besides the program exist at once. -/
def Obligations.ArraysAreAtMostMaxHandles : Prop :=
  ∀ s : State, Inv s → s.table.length ≤ s.params.maxHandles

/-- R201: with an empty image the first step faults with OutOfBoundsOffset before any instruction executes. The kind of
the fault is the spec's decision D2 (log 9). -/
def Obligations.EmptyImageFaultsAtOnce : Prop :=
  ∀ s : State, 1 ≤ s.params.maxHandles →
    ∃ r t, s.assertReset [] = .next r ∧ step r = .next t ∧ FaultTaken .outOfBoundsOffset r t

/-- R154, R170: the numeric form of STATUS, and the codes of the fault kinds, all different. They are the spec's
decisions D7 and D8. -/
def Obligations.StatusPortCodes : Prop :=
  Status.port .running = (0, 0) ∧ Status.port .halted = (1, 0) ∧
  Status.port (.faulted .invalidHandle) = (2, 1) ∧ Status.port (.faulted .outOfBoundsOffset) = (2, 2) ∧
  Status.port (.faulted .divisionByZero) = (2, 3) ∧ Status.port (.faulted .outOfRangeOutput) = (2, 4) ∧
  Status.port (.faulted .outOfRangeInput) = (2, 5) ∧ Status.port (.faulted .capacityExhausted) = (2, 6) ∧
  Status.port (.faulted .malformedOperation) = (2, 7)

/-- An instruction word placed for the next fetch is what the next step runs (log 2). -/
def Obligations.PlacedWordIsRun : Prop :=
  ∀ (s : State) (w : Nat) (i : Instr), w < 2 ^ 32 → decode (BitVec.ofNat 32 w) = .ok i →
    (s.withFetchWord 32 w).AboutToRun i ∧
    step (s.withFetchWord 32 w) = exec i ((s.withFetchWord 32 w).setPc ((s.withFetchWord 32 w).pc + 1)) ∧
    (∀ r, (s.withFetchWord 32 w).reg r = s.reg r) ∧ (s.withFetchWord 32 w).console = s.console ∧
    (∀ h, h ≠ 0 → 1 ≤ s.params.maxHandles → (s.withFetchWord 32 w).array h = s.array h)

/-! ## The control states -/

/-- R78, R123: from `S_FETCH` the finer machine reaches, in one to seven moves, the very state the step gives, at
`S_FETCH`, `S_HALTED` or `S_FAULTED` as the status says. The control states are the spec's decision D24 (log 11). -/
def Obligations.ControlStatesRefineStep : Prop :=
  ∀ s t : State, step s = .next t → ∃ n, 1 ≤ n ∧ n ≤ 7 ∧ microRun n ⟨.sFetch, s⟩ = some ⟨t.status.ctl, t⟩

/-- R78, R142: from a held IN the finer machine comes to `S_INWAIT`, `pc` already past the IN word and nothing else
changed, and makes no move until the console answers. The control states are D24, the hold D11 (log 6, log 11). -/
def Obligations.HoldWaitsInItsControlState : Prop :=
  ∀ (s : State) (c : Reg), s.AboutToRun (.input c) → s.console.take = none →
    microRun 3 ⟨.sFetch, s⟩ = some ⟨.sInWait c, s.setPc (s.pc + 1)⟩ ∧
    micro ⟨.sInWait c, s.setPc (s.pc + 1)⟩ = none ∧
    ∀ a, ∃ t, micro ⟨.sInWait c, (s.setPc (s.pc + 1)).deliver a⟩ = some ⟨t.status.ctl, t⟩

/-! ## Images that cannot be booted -/

/-- R201, R151: an image longer than the storage, or than a word can count, cannot be booted: RESET leads to no state, and
`S_RESET` has no move. That this is a named stop is the model's choice (log 10). -/
def Obligations.OversizedImageCannotBeBooted : Prop :=
  ∀ (s : State) (image : List Word), ¬ s.Fits image.length ∨ 2 ^ 32 ≤ image.length →
    s.assertReset image = .fault .cannotBoot ∧ micro ⟨.sReset image, s⟩ = none
end

