-- ==== Sys2Proof/Laws/Sparse.lean ====
section
/-! SUPPORT. The sparse tables: what is found after a put and a del, and that both keep the keys rising. The first group
holds of every list, canonical or not. -/

namespace Sys2Proof.Machine

variable {α : Type}

@[simp] theorem find_put_same (k : Nat) (v : α) (l : List (Nat × α)) : find k (put k v l) = some v := by
  induction l with
  | nil => simp [put, find]
  | cons e l ih =>
    obtain ⟨j, w⟩ := e
    simp only [put]
    split
    · simp [find]
    · split
      · simp [find]
      · rename_i hne
        simp [find, Ne.symm hne, ih]

theorem find_put_other {k q : Nat} (h : q ≠ k) (v : α) (l : List (Nat × α)) :
    find q (put k v l) = find q l := by
  induction l with
  | nil => simp [put, find, Ne.symm h]
  | cons e l ih =>
    obtain ⟨j, w⟩ := e
    simp only [put]
    split
    · simp [find, Ne.symm h]
    · split
      · rename_i hkj
        simp [find, Ne.symm h, ← hkj]
      · simp [find, ih]

@[simp] theorem find_del_same (k : Nat) (l : List (Nat × α)) : find k (del k l) = none := by
  induction l with
  | nil => rfl
  | cons e l ih =>
    obtain ⟨j, w⟩ := e
    by_cases h : j = k <;> simp [del, find, h, ih]

theorem find_del_other {k q : Nat} (h : q ≠ k) (l : List (Nat × α)) : find q (del k l) = find q l := by
  induction l with
  | nil => rfl
  | cons e l ih =>
    obtain ⟨j, w⟩ := e
    by_cases hj : j = k
    · subst hj; simp [del, find, ih, Ne.symm h]
    · simp [del, find, hj, ih]

theorem del_comm (k q : Nat) (l : List (Nat × α)) : del k (del q l) = del q (del k l) := by
  induction l with
  | nil => rfl
  | cons e l ih =>
    obtain ⟨j, w⟩ := e
    by_cases hk : j = k <;> by_cases hq : j = q <;> simp_all [del]

theorem find_mem {k : Nat} {v : α} {l : List (Nat × α)} (h : find k l = some v) : (k, v) ∈ l := by
  induction l with
  | nil => simp [find] at h
  | cons e l ih =>
    obtain ⟨j, w⟩ := e
    by_cases hj : j = k
    · simp only [find, hj, ↓reduceIte, Option.some.injEq] at h; simp [hj, h]
    · simp only [find, hj, ↓reduceIte] at h; exact List.mem_cons_of_mem _ (ih h)

theorem find_none_of_notMem {k : Nat} {l : List (Nat × α)} (h : ∀ e ∈ l, e.1 ≠ k) : find k l = none := by
  cases hf : find k l with
  | none => rfl
  | some v => exact absurd rfl (h _ (find_mem hf))

theorem mem_put {k : Nat} {v : α} {l : List (Nat × α)} {e : Nat × α} (h : e ∈ put k v l) :
    e = (k, v) ∨ e ∈ l := by
  induction l with
  | nil => simpa [put] using h
  | cons d l ih =>
    obtain ⟨j, w⟩ := d
    simp only [put] at h
    split at h
    · simpa using h
    · split at h
      · rcases List.mem_cons.mp h with h | h
        · exact .inl h
        · exact .inr (List.mem_cons_of_mem _ h)
      · rcases List.mem_cons.mp h with h | h
        · exact .inr (by simp [h])
        · exact (ih h).imp_right (List.mem_cons_of_mem _)

theorem mem_del {k : Nat} {l : List (Nat × α)} {e : Nat × α} (h : e ∈ del k l) : e ∈ l := by
  induction l with
  | nil => simp [del] at h
  | cons d l ih =>
    obtain ⟨j, w⟩ := d
    simp only [del] at h
    split at h
    · exact List.mem_cons_of_mem _ (ih h)
    · rcases List.mem_cons.mp h with h | h
      · simp [h]
      · exact List.mem_cons_of_mem _ (ih h)

/-! ## The canonical form -/

theorem rising_cons {j : Nat} {w : α} {l : List (Nat × α)} :
    Rising ((j, w) :: l) ↔ (∀ e ∈ l, j < e.1) ∧ Rising l := by
  simp only [Rising, List.map_cons, List.pairwise_cons, List.mem_map]
  constructor
  · rintro ⟨h, hp⟩
    exact ⟨fun e he => h _ ⟨e, he, rfl⟩, hp⟩
  · rintro ⟨h, hp⟩
    refine ⟨?_, hp⟩
    rintro _ ⟨e, he, rfl⟩
    exact h e he

theorem put_rising {k : Nat} {v : α} {l : List (Nat × α)} (h : Rising l) : Rising (put k v l) := by
  induction l with
  | nil => simp [put, Rising]
  | cons d l ih =>
    obtain ⟨j, w⟩ := d
    obtain ⟨hj, hl⟩ := rising_cons.mp h
    simp only [put]
    split
    · rename_i hkj
      refine rising_cons.mpr ⟨fun e he => ?_, h⟩
      rcases List.mem_cons.mp he with rfl | he
      · exact hkj
      · exact hkj.trans (hj e he)
    · split
      · rename_i hkj
        exact rising_cons.mpr ⟨fun e he => hkj ▸ hj e he, hl⟩
      · refine rising_cons.mpr ⟨fun e he => ?_, ih hl⟩
        rcases mem_put he with rfl | he
        · show j < k
          omega
        · exact hj e he

theorem del_rising {k : Nat} {l : List (Nat × α)} (h : Rising l) : Rising (del k l) := by
  induction l with
  | nil => simpa [del] using h
  | cons d l ih =>
    obtain ⟨j, w⟩ := d
    obtain ⟨hj, hl⟩ := rising_cons.mp h
    simp only [del]
    split
    · exact ih hl
    · exact rising_cons.mpr ⟨fun e he => hj e (mem_del he), ih hl⟩

theorem mem_find {k : Nat} {v : α} {l : List (Nat × α)} (hl : Rising l) (h : (k, v) ∈ l) :
    find k l = some v := by
  induction l with
  | nil => simp at h
  | cons d l ih =>
    obtain ⟨j, w⟩ := d
    obtain ⟨hj, hr⟩ := rising_cons.mp hl
    rcases List.mem_cons.mp h with h | h
    · simp only [Prod.mk.injEq] at h; simp [find, h.1, h.2]
    · have := hj _ h
      have hne : j ≠ k := Nat.ne_of_lt this
      simp [find, hne, ih hr h]

/-- In a canonical table equal look-ups mean equal data. -/
theorem rising_ext {l m : List (Nat × α)} (hl : Rising l) (hm : Rising m)
    (h : ∀ k, find k l = find k m) : l = m := by
  induction l generalizing m with
  | nil =>
    cases m with
    | nil => rfl
    | cons d m => obtain ⟨j, w⟩ := d; simpa [find] using h j
  | cons d l ih =>
    obtain ⟨j, w⟩ := d
    obtain ⟨hj, hl'⟩ := rising_cons.mp hl
    cases m with
    | nil => simpa [find] using h j
    | cons e m =>
      obtain ⟨i, v⟩ := e
      obtain ⟨hi, hm'⟩ := rising_cons.mp hm
      have notLow : ∀ {q : Nat} {x : List (Nat × α)}, (∀ e ∈ x, q < e.1) → find q x = none :=
        fun hx => find_none_of_notMem fun e he => Nat.ne_of_gt (hx e he)
      have hij : j = i := by
        by_contra hne
        rcases Nat.lt_or_gt_of_ne hne with hlt | hlt
        · have h1 := h j
          rw [show find j ((j, w) :: l) = some w by simp [find],
            notLow (x := (i, v) :: m) (fun e he => by
              rcases List.mem_cons.mp he with rfl | he
              · exact hlt
              · exact hlt.trans (hi e he))] at h1
          cases h1
        · have h1 := h i
          rw [show find i ((i, v) :: m) = some v by simp [find],
            notLow (x := (j, w) :: l) (fun e he => by
              rcases List.mem_cons.mp he with rfl | he
              · exact hlt
              · exact hlt.trans (hj e he))] at h1
          cases h1
      subst hij
      have hv : w = v := by simpa [find] using h j
      subst hv
      congr 1
      refine ih hl' hm' fun k => ?_
      by_cases hk : j = k
      · subst hk; rw [notLow hj, notLow hi]
      · simpa [find, hk] using h k

end Sys2Proof.Machine
end

