-- ==== Sys2Proof/Laws/State.lean ====
section
/-! SUPPORT. One lemma per field per update of State, each true by rfl, so that no later proof unfolds a record update. -/

namespace Sys2Proof.Machine

section Registers
variable (s : State) (r q : Reg) (v : Word)

@[simp] theorem State.setReg_pc : (s.setReg r v).pc = s.pc := rfl
@[simp] theorem State.setReg_table : (s.setReg r v).table = s.table := rfl
@[simp] theorem State.setReg_status : (s.setReg r v).status = s.status := rfl
@[simp] theorem State.setReg_params : (s.setReg r v).params = s.params := rfl
@[simp] theorem State.setReg_console : (s.setReg r v).console = s.console := rfl
@[simp] theorem State.setReg_array (h : Word) : (s.setReg r v).array h = s.array h := rfl

@[simp] theorem State.setReg_reg_same : (s.setReg r v).reg r = v := by
  simp [State.reg, State.setReg]

theorem State.setReg_reg_other (h : q ≠ r) : (s.setReg r v).reg q = s.reg q := by
  have h' : r.val ≠ q.val := fun e => h (Fin.ext e.symm)
  simp [State.reg, State.setReg, h']

theorem State.setReg_reg : (s.setReg r v).reg q = if q = r then v else s.reg q := by
  by_cases h : q = r
  · simp [h]
  · simp [h, State.setReg_reg_other]

/-- Two writes to different registers commute. -/
theorem State.setReg_comm (w : Word) (h : q ≠ r) :
    (s.setReg r v).setReg q w = (s.setReg q w).setReg r v := by
  have h' : r.val ≠ q.val := fun e => h (Fin.ext e.symm)
  simp only [State.setReg, State.mk.injEq, and_true]
  exact Vector.set_comm v w h'

/-- Two states with equal registers and equal other fields are equal. -/
theorem State.ext_regs {s t : State} (hr : ∀ r, t.reg r = s.reg r) : t.regs = s.regs := by
  apply Vector.ext
  intro i hi
  exact hr ⟨i, hi⟩

end Registers

section ProgramCounter
variable (s : State) (p : Word) (r : Reg) (h o : Word)

@[simp] theorem State.setPc_pc : (s.setPc p).pc = p := rfl
@[simp] theorem State.setPc_regs : (s.setPc p).regs = s.regs := rfl
@[simp] theorem State.setPc_table : (s.setPc p).table = s.table := rfl
@[simp] theorem State.setPc_status : (s.setPc p).status = s.status := rfl
@[simp] theorem State.setPc_params : (s.setPc p).params = s.params := rfl
@[simp] theorem State.setPc_console : (s.setPc p).console = s.console := rfl
@[simp] theorem State.setPc_reg : (s.setPc p).reg r = s.reg r := rfl
@[simp] theorem State.setPc_array : (s.setPc p).array h = s.array h := rfl
@[simp] theorem State.setPc_memRead : (s.setPc p).memRead h o = s.memRead h o := rfl
@[simp] theorem State.advancePc_pc : s.advancePc.pc = s.pc + 1 := rfl
@[simp] theorem State.advancePc_regs : s.advancePc.regs = s.regs := rfl
@[simp] theorem State.advancePc_table : s.advancePc.table = s.table := rfl
@[simp] theorem State.advancePc_status : s.advancePc.status = s.status := rfl
@[simp] theorem State.advancePc_params : s.advancePc.params = s.params := rfl
@[simp] theorem State.advancePc_console : s.advancePc.console = s.console := rfl
@[simp] theorem State.advancePc_reg : s.advancePc.reg r = s.reg r := rfl
@[simp] theorem State.advancePc_array : s.advancePc.array h = s.array h := rfl

end ProgramCounter

section Faults
variable (s : State) (k : FaultKind) (r : Reg) (h o : Word)

@[simp] theorem State.raise_status : (s.raise k).status = .faulted k := rfl
@[simp] theorem State.raise_regs : (s.raise k).regs = s.regs := rfl
@[simp] theorem State.raise_pc : (s.raise k).pc = s.pc := rfl
@[simp] theorem State.raise_table : (s.raise k).table = s.table := rfl
@[simp] theorem State.raise_params : (s.raise k).params = s.params := rfl
@[simp] theorem State.raise_console : (s.raise k).console = s.console := rfl
@[simp] theorem State.raise_reg : (s.raise k).reg r = s.reg r := rfl
@[simp] theorem State.raise_array : (s.raise k).array h = s.array h := rfl
@[simp] theorem State.finish_ok (t : State) : s.finish (.ok t) = .next t := rfl
@[simp] theorem State.finish_error : s.finish (.error k) = .next (s.raise k) := rfl

/-- A fault writes the status and nothing else (R171). -/
theorem State.raise_faultTaken : FaultTaken k s (s.raise k) :=
  ⟨rfl, ⟨fun _ => rfl, rfl, rfl, rfl, rfl⟩⟩

/-- How an operation ends: in the state it computed, or with a fault and nothing written. -/
theorem State.finish_cases {res : Except FaultKind State} {t : State} (hf : s.finish res = .next t) :
    res = .ok t ∨ ∃ k, res = .error k ∧ t = s.raise k := by
  cases res with
  | ok u => simp only [State.finish_ok, Host.Outcome.next.injEq] at hf; exact .inl (by rw [hf])
  | error k => simp only [State.finish_error, Host.Outcome.next.injEq] at hf; exact .inr ⟨k, rfl, hf.symm⟩

/-- An operation that can only succeed or fault always ends in a next state. -/
theorem State.finish_isNext (res : Except FaultKind State) : ∃ t, s.finish res = .next t := by
  cases res with
  | ok u => exact ⟨u, rfl⟩
  | error k => exact ⟨s.raise k, rfl⟩

end Faults

section Console
variable (s : State) (b : Byte) (r : Reg) (h : Word)

@[simp] theorem State.consoleOut_regs : (s.consoleOut b).regs = s.regs := rfl
@[simp] theorem State.consoleOut_pc : (s.consoleOut b).pc = s.pc := rfl
@[simp] theorem State.consoleOut_table : (s.consoleOut b).table = s.table := rfl
@[simp] theorem State.consoleOut_status : (s.consoleOut b).status = s.status := rfl
@[simp] theorem State.consoleOut_params : (s.consoleOut b).params = s.params := rfl
@[simp] theorem State.consoleOut_output :
    (s.consoleOut b).console.output = s.console.output ++ [b] := rfl
@[simp] theorem State.consoleOut_answers : (s.consoleOut b).console.answers = s.console.answers := rfl
@[simp] theorem State.consoleOut_atEnd : (s.consoleOut b).console.atEnd = s.console.atEnd := rfl
@[simp] theorem State.consoleOut_requests : (s.consoleOut b).console.requests = s.console.requests := rfl
@[simp] theorem State.consoleOut_reg : (s.consoleOut b).reg r = s.reg r := rfl
@[simp] theorem State.consoleOut_array : (s.consoleOut b).array h = s.array h := rfl

end Console

section Program
variable (s : State) (a : Arr) (r : Reg)

@[simp] theorem State.replace0_regs : (s.replace0 a).regs = s.regs := rfl
@[simp] theorem State.replace0_pc : (s.replace0 a).pc = s.pc := rfl
@[simp] theorem State.replace0_table : (s.replace0 a).table = put 0 a s.table := rfl
@[simp] theorem State.replace0_status : (s.replace0 a).status = s.status := rfl
@[simp] theorem State.replace0_params : (s.replace0 a).params = s.params := rfl
@[simp] theorem State.replace0_console : (s.replace0 a).console = s.console := rfl
@[simp] theorem State.replace0_reg : (s.replace0 a).reg r = s.reg r := rfl

end Program

end Sys2Proof.Machine
end

