-- ==== Sys2Proof/Laws/Arrays.lean ====
section
/-! SUPPORT. Arrays and the array table: reads after writes, and one lemma per operation that says all it can do. None of
these needs the canonical form; Laws/Canonical.lean proves that it is kept. -/

namespace Sys2Proof.Machine

/-! ## One array -/

@[simp] theorem Arr.set_len (a : Arr) (o v : Word) : (a.set o v).len = a.len := rfl

@[simp] theorem Arr.get_set_same (a : Arr) (o v : Word) : (a.set o v).get o = v := by
  by_cases h : v = 0
  · simp [Arr.get, Arr.set, h]
  · simp only [Arr.get, Arr.set, if_neg h, find_put_same, Option.getD_some]

theorem Arr.get_set_other (a : Arr) {o q : Word} (v : Word) (h : q ≠ o) : (a.set o v).get q = a.get q := by
  have hn : q.toNat ≠ o.toNat := fun e => h (BitVec.eq_of_toNat_eq e)
  by_cases hv : v = 0
  · simp [Arr.get, Arr.set, hv, find_del_other hn]
  · simp only [Arr.get, Arr.set, if_neg hv, find_put_other hn]

@[simp] theorem Arr.zeros_len (n : Word) : (Arr.zeros n).len = n := rfl

@[simp] theorem Arr.zeros_get (n o : Word) : (Arr.zeros n).get o = 0 := rfl

theorem cellsOfWords_mem {i : Nat} {ws : List Word} {e : Nat × Word} (h : e ∈ cellsOfWords i ws) :
    i ≤ e.1 ∧ e.1 < i + ws.length ∧ e.2 ≠ 0 := by
  induction ws generalizing i with
  | nil => simp [cellsOfWords] at h
  | cons w ws ih =>
    simp only [cellsOfWords] at h
    split at h
    · have := ih h
      simp only [List.length_cons]
      exact ⟨by omega, by omega, this.2.2⟩
    · rename_i hw
      rcases List.mem_cons.mp h with rfl | h
      · exact ⟨Nat.le_refl _, by simp, hw⟩
      · have := ih h
        simp only [List.length_cons]
        exact ⟨by omega, by omega, this.2.2⟩

theorem cellsOfWords_find (i j : Nat) (ws : List Word) :
    (find (i + j) (cellsOfWords i ws)).getD 0 = ws[j]?.getD 0 := by
  induction ws generalizing i j with
  | nil => simp [cellsOfWords, find]
  | cons w ws ih =>
    have low : find i (cellsOfWords (i + 1) ws) = none :=
      find_none_of_notMem fun e he => by have := (cellsOfWords_mem he).1; omega
    cases j with
    | zero =>
      simp only [cellsOfWords, Nat.add_zero, List.getElem?_cons_zero, Option.getD_some]
      split
      · rename_i hw; simp [low, hw]
      · simp [find]
    | succ j =>
      have ih' := ih (i + 1) j
      rw [show i + 1 + j = i + (j + 1) by omega] at ih'
      simp only [cellsOfWords, List.getElem?_cons_succ]
      split
      · exact ih'
      · have hne : i ≠ i + (j + 1) := by omega
        simpa [find, hne] using ih'

/-- Word `o` of the array of a sequence is word `o` of the sequence (R151). -/
theorem Arr.ofWords_get (ws : List Word) (o : Word) : (Arr.ofWords ws).get o = ws[o.toNat]?.getD 0 := by
  have := cellsOfWords_find 0 o.toNat ws
  simpa [Arr.get, Arr.ofWords] using this

/-! ## The table -/

theorem State.array_eq_some {s : State} {h : Word} {a : Arr} :
    s.array h = some a ↔ h.toNat < s.params.maxHandles ∧ find h.toNat s.table = some a := by
  simp [State.array]

theorem State.array_eq_none {s : State} {h : Word} :
    s.array h = none ↔ s.params.maxHandles ≤ h.toNat ∨ find h.toNat s.table = none := by
  by_cases hm : h.toNat < s.params.maxHandles
  · simp [State.array, hm]
  · simp [State.array, hm, Nat.le_of_not_lt hm]

/-- `array` looks at the parameters and the table alone. -/
theorem State.array_congr {s t : State} (hp : t.params = s.params) (ht : t.table = s.table) (h : Word) :
    t.array h = s.array h := by
  simp [State.array, hp, ht]

theorem State.memRead_congr {s t : State} {h : Word} (ha : t.array h = s.array h) (o : Word) :
    t.memRead h o = s.memRead h o := by
  simp [State.memRead, ha]

/-- MemRead (R33): the three things it can do. -/
theorem State.memRead_eq_ok {s : State} {h o v : Word} :
    s.memRead h o = .ok v ↔ ∃ a, s.array h = some a ∧ o < a.len ∧ v = a.get o := by
  unfold State.memRead
  cases ha : s.array h with
  | none => simp
  | some a =>
    simp only [Option.some.injEq, exists_eq_left']
    by_cases hb : a.len ≤ o
    · rw [if_pos hb]
      exact ⟨nofun, fun e => absurd hb (BitVec.not_le.mpr e.1)⟩
    · rw [if_neg hb, Except.ok.injEq]
      exact ⟨fun e => ⟨BitVec.not_le.mp hb, e.symm⟩, fun e => e.2.symm⟩

theorem State.memRead_eq_error {s : State} {h o : Word} {k : FaultKind} :
    s.memRead h o = .error k ↔ AccessRaises k s h o := by
  unfold State.memRead AccessRaises
  cases ha : s.array h with
  | none => simpa using eq_comm
  | some a =>
    by_cases hb : a.len ≤ o
    · simpa [hb] using eq_comm
    · simp [hb]

/-- The table with one array listed under a handle of the table's range. -/
theorem State.array_put_same {s : State} {h : Word} (hm : h.toNat < s.params.maxHandles) (a : Arr) :
    State.array { s with table := put h.toNat a s.table } h = some a := by
  simp [State.array, hm]

theorem State.array_put_other {s : State} {k : Nat} {q : Word} (hq : q.toNat ≠ k) (a : Arr) :
    State.array { s with table := put k a s.table } q = s.array q := by
  simp [State.array, find_put_other hq]

theorem State.array_del_same {s : State} (h : Word) :
    State.array { s with table := del h.toNat s.table } h = none := by
  simp [State.array]

theorem State.array_del_other {s : State} {k : Nat} {q : Word} (hq : q.toNat ≠ k) :
    State.array { s with table := del k s.table } q = s.array q := by
  simp [State.array, find_del_other hq]

/-- MemWrite (R34): it writes when the pair exists, and then one word of one array. -/
theorem State.memWrite_eq_ok {s t : State} {h o v : Word} :
    s.memWrite h o v = .ok t ↔
      ∃ a, s.array h = some a ∧ o < a.len ∧ t = { s with table := put h.toNat (a.set o v) s.table } := by
  unfold State.memWrite
  cases ha : s.array h with
  | none => simp
  | some a =>
    simp only [Option.some.injEq, exists_eq_left']
    by_cases hb : a.len ≤ o
    · rw [if_pos hb]
      exact ⟨nofun, fun e => absurd hb (BitVec.not_le.mpr e.1)⟩
    · rw [if_neg hb, Except.ok.injEq]
      exact ⟨fun e => ⟨BitVec.not_le.mp hb, e.symm⟩, fun e => e.2.symm⟩

theorem State.memWrite_eq_error {s : State} {h o v : Word} {k : FaultKind} :
    s.memWrite h o v = .error k ↔ AccessRaises k s h o := by
  unfold State.memWrite AccessRaises
  cases ha : s.array h with
  | none => simpa using eq_comm
  | some a =>
    by_cases hb : a.len ≤ o
    · simpa [hb] using eq_comm
    · simp [hb]

/-- After a write the array written to has the new word and its old length. -/
theorem State.memWrite_array_same {s t : State} {h o v : Word} (hw : s.memWrite h o v = .ok t) :
    ∃ a, s.array h = some a ∧ o < a.len ∧ t.array h = some (a.set o v) := by
  obtain ⟨a, ha, ho, rfl⟩ := State.memWrite_eq_ok.mp hw
  exact ⟨a, ha, ho, State.array_put_same (State.array_eq_some.mp ha).1 _⟩

theorem State.memWrite_array_other {s t : State} {h o v q : Word} (hw : s.memWrite h o v = .ok t)
    (hq : q ≠ h) : t.array q = s.array q := by
  obtain ⟨a, _, _, rfl⟩ := State.memWrite_eq_ok.mp hw
  exact State.array_put_other (fun e => hq (BitVec.eq_of_toNat_eq e)) _

/-! ## The storage -/

theorem State.fits_iff {s : State} {n : Nat} : s.fits n = true ↔ s.Fits n := by
  unfold State.fits State.Fits
  cases s.params.storeCapacityWords <;> simp

theorem State.fits_eq_false {s : State} {n : Nat} : s.fits n = false ↔ ¬ s.Fits n := by
  rw [← State.fits_iff, Bool.not_eq_true]

/-! ## The allocator -/

theorem firstFree_eq_some {m : Memory} {n h k : Nat} :
    firstFree m n h = some k ↔
      h ≤ k ∧ k < h + n ∧ find k m = none ∧ ∀ j, h ≤ j → j < k → find j m ≠ none := by
  induction n generalizing h with
  | zero => simp [firstFree]; omega
  | succ n ih =>
    simp only [firstFree]
    cases hf : find h m with
    | none =>
      simp only [Option.some.injEq]
      constructor
      · rintro rfl
        exact ⟨Nat.le_refl _, by omega, hf, fun j h1 h2 => by omega⟩
      · rintro ⟨h1, _, h3, h4⟩
        by_contra hne
        exact h4 h (Nat.le_refl _) (by omega) hf
    | some a =>
      simp only [ih]
      constructor
      · rintro ⟨h1, h2, h3, h4⟩
        refine ⟨by omega, by omega, h3, fun j hj1 hj2 => ?_⟩
        rcases Nat.eq_or_lt_of_le hj1 with rfl | hlt
        · simp [hf]
        · exact h4 j hlt hj2
      · rintro ⟨h1, h2, h3, h4⟩
        have hne : h ≠ k := fun e => by subst e; simp [hf] at h3
        exact ⟨by omega, by omega, h3, fun j hj1 hj2 => h4 j (by omega) hj2⟩

theorem firstFree_eq_none {m : Memory} {n h : Nat} :
    firstFree m n h = none ↔ ∀ j, h ≤ j → j < h + n → find j m ≠ none := by
  induction n generalizing h with
  | zero => simp [firstFree]; omega
  | succ n ih =>
    simp only [firstFree]
    cases hf : find h m with
    | none =>
      simp only [reduceCtorEq, false_iff, not_forall]
      exact ⟨h, Nat.le_refl _, by omega, by simp [hf]⟩
    | some a =>
      simp only [ih]
      constructor
      · intro hall j hj1 hj2
        rcases Nat.eq_or_lt_of_le hj1 with rfl | hlt
        · simp [hf]
        · exact hall j hlt (by omega)
      · intro hall j hj1 hj2
        exact hall j (by omega) (by omega)

/-- The allocator's choice is the minimum of the free pool (R104). -/
theorem State.lowestFree_eq_some {s : State} {h : Nat} : s.lowestFree = some h ↔ s.MinFree h := by
  unfold State.lowestFree State.MinFree State.InFreePool
  rw [firstFree_eq_some]
  constructor
  · rintro ⟨h1, h2, h3, h4⟩
    refine ⟨⟨h1, by omega, h3⟩, ?_⟩
    rintro k ⟨k1, _, k3⟩
    by_contra hk
    exact h4 k k1 (by omega) k3
  · rintro ⟨⟨h1, h2, h3⟩, h4⟩
    refine ⟨h1, by omega, h3, fun j j1 j2 j3 => ?_⟩
    have := h4 j ⟨j1, by omega, j3⟩
    omega

theorem State.lowestFree_eq_none {s : State} : s.lowestFree = none ↔ ∀ h, ¬ s.InFreePool h := by
  unfold State.lowestFree State.InFreePool
  rw [firstFree_eq_none]
  constructor
  · rintro hall h ⟨h1, h2, h3⟩
    exact hall h h1 (by omega) h3
  · intro hall j j1 j2 j3
    exact hall j ⟨j1, by omega, j3⟩

/-- Two minima of one pool are equal. -/
theorem State.MinFree.unique {s : State} {h k : Nat} (hh : s.MinFree h) (hk : s.MinFree k) : h = k :=
  Nat.le_antisymm (hh.2 k hk.1) (hk.2 h hh.1)

/-- Allocate (R104): what it answers when it succeeds. -/
theorem State.allocate_eq_ok {s t : State} {n r : Word} :
    s.allocate n = .ok (r, t) ↔
      ∃ h, s.MinFree h ∧ s.Fits (s.usedAfterAlloc n) ∧ r = BitVec.ofNat 32 h ∧
        t = { s with table := put h (Arr.zeros n) s.table } := by
  unfold State.allocate
  cases hl : s.lowestFree with
  | none =>
    have := State.lowestFree_eq_none.mp hl
    simp only [reduceCtorEq, false_iff, not_exists, not_and]
    exact fun h hm => absurd hm.1 (this h)
  | some h =>
    have hm := State.lowestFree_eq_some.mp hl
    cases hf : s.fits (s.table.used + n.toNat) with
    | true =>
      have hF : s.Fits (s.usedAfterAlloc n) := State.fits_iff.mp hf
      simp only [↓reduceIte, Except.ok.injEq, Prod.mk.injEq]
      constructor
      · rintro ⟨rfl, rfl⟩; exact ⟨h, hm, hF, rfl, rfl⟩
      · rintro ⟨k, hk, _, rfl, rfl⟩; rw [hm.unique hk]; exact ⟨rfl, rfl⟩
    | false =>
      have hF : ¬ s.Fits (s.usedAfterAlloc n) := State.fits_eq_false.mp hf
      simp [hF]

/-- Allocate (R104): when it fails, and with what. -/
theorem State.allocate_eq_error {s : State} {n : Word} {k : FaultKind} :
    s.allocate n = .error k ↔
      ((∀ h, ¬ s.InFreePool h) ∨ ¬ s.Fits (s.usedAfterAlloc n)) ∧ k = .capacityExhausted := by
  unfold State.allocate
  cases hl : s.lowestFree with
  | none =>
    have := State.lowestFree_eq_none.mp hl
    simpa [this] using eq_comm
  | some h =>
    have hm := State.lowestFree_eq_some.mp hl
    have hne : ¬ ∀ h, ¬ s.InFreePool h := fun hall => hall h hm.1
    cases hf : s.fits (s.table.used + n.toNat) with
    | true =>
      have hF : s.Fits (s.usedAfterAlloc n) := State.fits_iff.mp hf
      simp [hne, hF]
    | false =>
      have hF : ¬ s.Fits (s.usedAfterAlloc n) := State.fits_eq_false.mp hf
      simpa [hF] using eq_comm

/-- Deallocate (R106). -/
theorem State.deallocate_eq_ok {s t : State} {h : Word} :
    s.deallocate h = .ok t ↔
      h ≠ 0 ∧ s.array h ≠ none ∧ t = { s with table := del h.toNat s.table } := by
  unfold State.deallocate
  by_cases h0 : h = 0
  · rw [if_pos h0]
    exact ⟨nofun, fun e => absurd h0 e.1⟩
  · rw [if_neg h0]
    cases ha : s.array h with
    | none => exact ⟨nofun, fun e => absurd rfl e.2.1⟩
    | some a => exact ⟨fun e => ⟨h0, nofun, (Except.ok.inj e).symm⟩, fun e => by rw [e.2.2]⟩

theorem State.deallocate_eq_error {s : State} {h : Word} {k : FaultKind} :
    s.deallocate h = .error k ↔ (h = 0 ∨ s.array h = none) ∧ k = .invalidHandle := by
  unfold State.deallocate
  by_cases h0 : h = 0
  · rw [if_pos h0, Except.error.injEq]
    exact ⟨fun e => ⟨.inl h0, e.symm⟩, fun e => e.2.symm⟩
  · rw [if_neg h0]
    cases ha : s.array h with
    | none => exact ⟨fun e => ⟨.inr rfl, (Except.error.inj e).symm⟩, fun e => by rw [e.2]⟩
    | some a => exact ⟨nofun, fun e => absurd e.1 (by simpa using h0)⟩

/-! ## The program -/

/-- The check of a load source (R121, R44). -/
theorem State.loadSource_eq_ok {s : State} {h : Word} {a : Arr} :
    s.loadSource h = .ok a ↔ s.array h = some a ∧ s.Fits (s.usedAfterLoad a) := by
  unfold State.loadSource
  cases ha : s.array h with
  | none => simp
  | some b =>
    simp only [Option.some.injEq]
    change (if s.fits (s.usedAfterLoad b) then _ else _) = _ ↔ _
    by_cases hF : s.Fits (s.usedAfterLoad b)
    · rw [if_pos (State.fits_iff.mpr hF), Except.ok.injEq]
      exact ⟨fun e => ⟨e, e ▸ hF⟩, fun e => e.1⟩
    · rw [if_neg (fun hf => hF (State.fits_iff.mp hf))]
      exact ⟨nofun, fun e => absurd (e.1 ▸ e.2) hF⟩

theorem State.loadSource_eq_error {s : State} {h : Word} {k : FaultKind} :
    s.loadSource h = .error k ↔
      (s.array h = none ∧ k = .invalidHandle) ∨
        ∃ a, s.array h = some a ∧ ¬ s.Fits (s.usedAfterLoad a) ∧ k = .capacityExhausted := by
  unfold State.loadSource
  cases ha : s.array h with
  | none => simpa using eq_comm
  | some b =>
    simp only [reduceCtorEq, false_and, Option.some.injEq, exists_eq_left', false_or]
    change (if s.fits (s.usedAfterLoad b) then _ else _) = _ ↔ _
    by_cases hF : s.Fits (s.usedAfterLoad b)
    · rw [if_pos (State.fits_iff.mpr hF)]
      exact ⟨nofun, fun e => absurd hF e.1⟩
    · rw [if_neg (fun hf => hF (State.fits_iff.mp hf)), Except.error.injEq]
      exact ⟨fun e => ⟨hF, e.symm⟩, fun e => e.2.symm⟩

theorem State.replace0_array_zero {s : State} (hm : 1 ≤ s.params.maxHandles) (a : Arr) :
    (s.replace0 a).array 0 = some a := by
  simp only [State.array, State.replace0_params, State.replace0_table]
  simp [Nat.lt_of_lt_of_le Nat.zero_lt_one hm]

theorem State.replace0_array_other {s : State} {h : Word} (hh : h ≠ 0) (a : Arr) :
    (s.replace0 a).array h = s.array h := by
  have hn : h.toNat ≠ 0 := fun e => hh (BitVec.eq_of_toNat_eq (by simpa using e))
  simp [State.array, find_put_other hn]

/-- The fetch is a read of handle 0 at `pc` (R72). -/
theorem State.fetch_eq_memRead (s : State) : s.fetch = s.memRead 0 s.pc := rfl

/-- The increment of `pc` after a successful fetch does not wrap (R14). -/
theorem State.fetch_pc_lt {s : State} {w : Word} (hf : s.fetch = .ok w) : s.pc.toNat + 1 < 2 ^ 32 := by
  obtain ⟨a, _, ho, _⟩ := State.memRead_eq_ok.mp hf
  have h1 := BitVec.lt_def.mp ho
  have h2 := a.len.isLt
  omega

end Sys2Proof.Machine
end

