-- ==== Sys2Proof/Laws/Canonical.lean ====
section
/-! SUPPORT. Every memory operation keeps the canonical form, reset has it, and what each does to the words in use. -/

namespace Sys2Proof.Machine

/-! ## One array -/

theorem Arr.set_wf {a : Arr} {o v : Word} (ha : a.wf) (ho : o < a.len) : (a.set o v).wf := by
  obtain ⟨hr, hc⟩ := ha
  by_cases hv : v = 0
  · simp only [Arr.wf, Arr.set, if_pos hv]
    exact ⟨del_rising hr, fun e he => hc e (mem_del he)⟩
  · simp only [Arr.wf, Arr.set, if_neg hv]
    refine ⟨put_rising hr, fun e he => ?_⟩
    rcases mem_put he with rfl | he
    · exact ⟨BitVec.lt_def.mp ho, hv⟩
    · exact hc e he

theorem Arr.zeros_wf (n : Word) : (Arr.zeros n).wf := by
  simp [Arr.wf, Arr.zeros, Rising]

theorem cellsOfWords_rising (i : Nat) (ws : List Word) : Rising (cellsOfWords i ws) := by
  induction ws generalizing i with
  | nil => simp [cellsOfWords, Rising]
  | cons w ws ih =>
    simp only [cellsOfWords]
    split
    · exact ih (i + 1)
    · exact rising_cons.mpr ⟨fun e he => (cellsOfWords_mem he).1, ih (i + 1)⟩

theorem Arr.ofWords_len {ws : List Word} (h : ws.length < 2 ^ 32) :
    (Arr.ofWords ws).len.toNat = ws.length := by
  simpa [Arr.ofWords] using h

theorem Arr.ofWords_wf {ws : List Word} (h : ws.length < 2 ^ 32) : (Arr.ofWords ws).wf := by
  refine ⟨cellsOfWords_rising 0 ws, fun e he => ?_⟩
  have hm := cellsOfWords_mem (i := 0) he
  rw [Arr.ofWords_len h]
  exact ⟨by omega, hm.2.2⟩

/-! ## The table -/

theorem Memory.put_wf {m : Memory} {k : Nat} {a : Arr} (hm : m.wf) (ha : a.wf) :
    Memory.wf (put k a m) := by
  refine ⟨put_rising hm.1, fun e he => ?_⟩
  rcases mem_put he with rfl | he
  · exact ha
  · exact hm.2 e he

theorem Memory.del_wf {m : Memory} {k : Nat} (hm : m.wf) : Memory.wf (del k m) :=
  ⟨del_rising hm.1, fun e he => hm.2 e (mem_del he)⟩

/-- The arrays of a canonical table are canonical. -/
theorem State.array_wf {s : State} {h : Word} {a : Arr} (hm : s.table.wf) (ha : s.array h = some a) : a.wf :=
  hm.2 _ (find_mem (State.array_eq_some.mp ha).2)

theorem State.memWrite_wf {s t : State} {h o v : Word} (hm : s.table.wf) (hw : s.memWrite h o v = .ok t) :
    t.table.wf := by
  obtain ⟨a, ha, ho, rfl⟩ := State.memWrite_eq_ok.mp hw
  exact Memory.put_wf hm (Arr.set_wf (State.array_wf hm ha) ho)

theorem State.allocate_wf {s t : State} {n r : Word} (hm : s.table.wf) (ha : s.allocate n = .ok (r, t)) :
    t.table.wf := by
  obtain ⟨h, _, _, _, rfl⟩ := State.allocate_eq_ok.mp ha
  exact Memory.put_wf hm (Arr.zeros_wf n)

theorem State.deallocate_wf {s t : State} {h : Word} (hm : s.table.wf) (hd : s.deallocate h = .ok t) :
    t.table.wf := by
  obtain ⟨_, _, rfl⟩ := State.deallocate_eq_ok.mp hd
  exact Memory.del_wf hm

theorem State.replace0_wf {s : State} {a : Arr} (hm : s.table.wf) (ha : a.wf) :
    (s.replace0 a).table.wf := Memory.put_wf hm ha

theorem State.bootState_wf {params : Config.Params} {image : List Word} {console : Console}
    (h : image.length < 2 ^ 32) : (State.bootState params image console).table.wf := by
  refine ⟨by simp [State.bootState, Rising], fun e he => ?_⟩
  simp only [State.bootState, List.mem_singleton] at he
  exact he ▸ Arr.ofWords_wf h

/-- Which images can be booted (R151, R201). -/
theorem State.bootable_iff {s : State} {image : List Word} :
    s.bootable image = true ↔ image.length < 2 ^ 32 ∧ s.Fits image.length := by
  have hl : image.length ≤ Config.maxLen ↔ image.length < 2 ^ 32 := by unfold Config.maxLen; omega
  rw [State.bootable, Bool.and_eq_true, State.fits_iff, decide_eq_true_iff, hl]

/-- RESET leads to the boot state of an image that can be booted, and to nothing with any other. -/
theorem State.assertReset_eq_next {s t : State} {image : List Word} :
    s.assertReset image = .next t ↔
      (image.length < 2 ^ 32 ∧ s.Fits image.length) ∧ t = State.bootState s.params image s.console := by
  have hf : (State.bootState s.params image s.console).bootable image = s.bootable image := rfl
  rw [← State.bootable_iff]
  simp only [State.assertReset, State.boot, hf]
  split <;> simp [*, eq_comm]

/-- RESET with an image that cannot be booted is the named stop. -/
theorem State.assertReset_eq_fault {s : State} {image : List Word} :
    s.assertReset image = .fault .cannotBoot ↔ ¬ (image.length < 2 ^ 32 ∧ s.Fits image.length) := by
  have hf : (State.bootState s.params image s.console).bootable image = s.bootable image := rfl
  rw [← State.bootable_iff]
  simp only [State.assertReset, State.boot, hf]
  split <;> simp [*]

theorem State.reset_table_wf : State.reset.table.wf := by decide

/-- `State.reset` is the reset state for the empty image (R200, log 2). -/
theorem State.reset_eq_boot :
    State.boot Config.Params.default [] ⟨[], .endOfStream, [], 0⟩ = .next State.reset := rfl

/-! ## The words in use (R44) -/

@[simp] theorem Memory.used_nil : Memory.used [] = 0 := rfl

@[simp] theorem Memory.used_cons (e : Nat × Arr) (m : Memory) :
    Memory.used (e :: m) = e.2.len.toNat + Memory.used m := by
  simp [Memory.used]

theorem Memory.used_put_new {m : Memory} {k : Nat} {a : Arr} (h : find k m = none) :
    Memory.used (put k a m) = m.used + a.len.toNat := by
  induction m with
  | nil => simp [put]
  | cons e m ih =>
    obtain ⟨j, w⟩ := e
    simp only [find] at h
    split at h
    · cases h
    · rename_i hne
      simp only [put]
      split
      · simp; omega
      · rw [if_neg (Ne.symm hne)]
        simp [ih h]; omega

theorem Memory.used_put_old {m : Memory} {k : Nat} {a b : Arr} (hr : Rising m) (h : find k m = some b) :
    Memory.used (put k a m) + b.len.toNat = m.used + a.len.toNat := by
  induction m with
  | nil => simp [find] at h
  | cons e m ih =>
    obtain ⟨j, w⟩ := e
    obtain ⟨hj, hr'⟩ := rising_cons.mp hr
    simp only [find] at h
    split at h
    · rename_i hjk
      simp only [Option.some.injEq] at h
      subst hjk; subst h
      simp [put]; omega
    · rename_i hne
      have hlt := hj _ (find_mem h)
      simp only [put]
      rw [if_neg (by show ¬ k < j; simp at hlt; omega), if_neg (Ne.symm hne)]
      have := ih hr' h
      simp; omega

theorem Memory.used_del_le (m : Memory) (k : Nat) : Memory.used (del k m) ≤ m.used := by
  induction m with
  | nil => simp [del]
  | cons e m ih =>
    obtain ⟨j, w⟩ := e
    simp only [del]
    split <;> simp <;> omega

theorem Memory.len_le_used {m : Memory} {k : Nat} {a : Arr} (h : find k m = some a) :
    a.len.toNat ≤ m.used := by
  induction m with
  | nil => simp [find] at h
  | cons e m ih =>
    obtain ⟨j, w⟩ := e
    simp only [find] at h
    split at h
    · simp only [Option.some.injEq] at h; subst h; simp
    · have := ih h; simp; omega

end Sys2Proof.Machine
end

