-- ==== Sys2Proof/Laws/Decode.lean ====
section
/-! SUPPORT. The decoder and the encoder: fields as numbers, and the fields of an encoded word. -/

namespace Sys2Proof

/-- `w[hi:lo]` as a quotient and a remainder. -/
theorem bits_eq (w : Word) (hi lo : Nat) : bits w hi lo = w.toNat / 2 ^ lo % 2 ^ (hi - lo + 1) := by
  simp [bits, BitVec.extractLsb, Nat.shiftRight_eq_div_pow]

theorem fieldOp_eq (w : Word) : fieldOp w = w.toNat / 2 ^ 28 := by
  have := w.isLt
  simp only [fieldOp, bits_eq]
  omega

theorem regField_val (w : Word) (lo : Nat) : (regField w lo).val = w.toNat / 2 ^ lo % 8 := by
  simp [regField, bits_eq, Fin.ofNat]

theorem opOfTag_tag (o : Op) : opOfTag o.tag = some o := by
  cases o <;> rfl

theorem Op.tag_lt (o : Op) : o.tag < 14 := by
  cases o <;> decide

theorem opOfTag_eq_none {n : Nat} : opOfTag n = none ↔ 14 ≤ n := by
  simp [opOfTag, opTable]

/-- What the decoder gives for a word whose tag is that of `o`. -/
theorem decode_of_tag {w : Word} {o : Op} (h : fieldOp w = o.tag) : decode w = .ok (o.instr w) := by
  simp [decode, h, opOfTag_tag]

/-- A word with tag 14 or 15 is reported by name (R56). -/
theorem decode_malformed {w : Word} (h : 14 ≤ fieldOp w) :
    decode w = .error (.malformedOperation (fieldOp w)) := by
  simp [decode, opOfTag_eq_none.mpr h]

section R3
variable (o : Op) (a b c : Reg)

theorem encodeR3_toNat :
    (encodeR3 o a b c).toNat = o.tag * 2 ^ 28 + a.val * 64 + b.val * 8 + c.val := by
  have h1 := o.tag_lt
  have h2 := a.isLt
  have h3 := b.isLt
  have h4 := c.isLt
  simp only [encodeR3, BitVec.toNat_ofNat]
  omega

@[simp] theorem fieldOp_encodeR3 : fieldOp (encodeR3 o a b c) = o.tag := by
  have h2 := a.isLt
  have h3 := b.isLt
  have h4 := c.isLt
  rw [fieldOp_eq, encodeR3_toNat]
  omega

@[simp] theorem fieldA_encodeR3 : fieldA (encodeR3 o a b c) = a := by
  have h2 := a.isLt
  have h3 := b.isLt
  have h4 := c.isLt
  apply Fin.ext
  rw [fieldA, regField_val, encodeR3_toNat]
  omega

@[simp] theorem fieldB_encodeR3 : fieldB (encodeR3 o a b c) = b := by
  have h3 := b.isLt
  have h4 := c.isLt
  apply Fin.ext
  rw [fieldB, regField_val, encodeR3_toNat]
  omega

@[simp] theorem fieldC_encodeR3 : fieldC (encodeR3 o a b c) = c := by
  have h4 := c.isLt
  apply Fin.ext
  rw [fieldC, regField_val, encodeR3_toNat]
  omega

/-- The decoder gives back the operation with the three fields. -/
theorem decode_encodeR3 : decode (encodeR3 o a b c) = .ok (o.instr (encodeR3 o a b c)) :=
  decode_of_tag (fieldOp_encodeR3 o a b c)

end R3

section LI
variable {ia : Reg} {imm : Nat} (h : imm ≤ 0x1FFFFFF)
include h

theorem encodeLI_toNat : (encodeLI .ldi ia imm).toNat = 13 * 2 ^ 28 + ia.val * 2 ^ 25 + imm := by
  have h2 := ia.isLt
  have ht : Op.tag .ldi = 13 := by decide
  simp only [encodeLI, ht, BitVec.toNat_ofNat]
  omega

theorem fieldOp_encodeLI : fieldOp (encodeLI .ldi ia imm) = 13 := by
  have h2 := ia.isLt
  rw [fieldOp_eq, encodeLI_toNat h]
  omega

theorem fieldIA_encodeLI : fieldIA (encodeLI .ldi ia imm) = ia := by
  have h2 := ia.isLt
  apply Fin.ext
  rw [fieldIA, regField_val, encodeLI_toNat h]
  omega

theorem fieldIMM_encodeLI : fieldIMM (encodeLI .ldi ia imm) = imm := by
  have h2 := ia.isLt
  rw [fieldIMM, bits_eq, encodeLI_toNat h]
  omega

end LI

theorem bits_le (w : Word) (hi lo : Nat) : bits w hi lo < 2 ^ (hi - lo + 1) := by
  rw [bits_eq]
  exact Nat.mod_lt _ (Nat.two_pow_pos _)

end Sys2Proof
end

