-- ==== Sys2Proof/Laws/Exec.lean ====
section
/-! SUPPORT. Once and for all: what executing an instruction can do (`exec_effect`), which holds iff there is a next state
(`exec_of_effect`). Whole-machine claims are case analyses of `Effect`, not of `exec`. -/

namespace Sys2Proof.Machine

/-- The effects of the 14 instructions, one constructor per way an instruction can end in a next state. -/
inductive Effect (s : State) : Instr → State → Prop where
  | cmovMove {a b c : Reg} (hc : s.reg c ≠ 0) : Effect s (.cmov a b c) (s.setReg a (s.reg b))
  | cmovKeep {a b c : Reg} (hc : s.reg c = 0) : Effect s (.cmov a b c) s
  | add {a b c : Reg} : Effect s (.add a b c) (s.setReg a (addWord (s.reg b) (s.reg c)))
  | mul {a b c : Reg} : Effect s (.mul a b c) (s.setReg a (mulWord (s.reg b) (s.reg c)))
  | div {a b c : Reg} (hc : s.reg c ≠ 0) :
      Effect s (.div a b c) (s.setReg a (BitVec.ofNat 32 ((s.reg b).toNat / (s.reg c).toNat)))
  | nand {a b c : Reg} : Effect s (.nand a b c) (s.setReg a (nandWord (s.reg b) (s.reg c)))
  | ldi {ia : Reg} {imm : Nat} : Effect s (.ldi ia imm) (s.setReg ia (immOperand imm))
  | aidx {a b c : Reg} {x : Arr} (hx : s.array (s.reg b) = some x) (ho : s.reg c < x.len) :
      Effect s (.aidx a b c) (s.setReg a (x.get (s.reg c)))
  | aupd {a b c : Reg} {x : Arr} (hx : s.array (s.reg a) = some x) (ho : s.reg b < x.len) :
      Effect s (.aupd a b c) { s with table := put (s.reg a).toNat (x.set (s.reg b) (s.reg c)) s.table }
  | alloc {b c : Reg} {h : Nat} (hm : s.MinFree h) (hf : s.Fits (s.usedAfterAlloc (s.reg c))) :
      Effect s (.alloc b c)
        (State.setReg { s with table := put h (Arr.zeros (s.reg c)) s.table } b (BitVec.ofNat 32 h))
  | free {c : Reg} (h0 : s.reg c ≠ 0) (ha : s.array (s.reg c) ≠ none) :
      Effect s (.free c) { s with table := del (s.reg c).toNat s.table }
  | halt : Effect s .halt { s with status := .halted }
  | jump {b c : Reg} (hb : s.reg b = 0) : Effect s (.loadp b c) (s.setPc (s.reg c))
  | load {b c : Reg} {x : Arr} (hb : s.reg b ≠ 0) (hx : s.array (s.reg b) = some x)
      (hf : s.Fits (s.usedAfterLoad x)) : Effect s (.loadp b c) ((s.replace0 x).setPc (s.reg c))
  | output {c : Reg} (hv : s.reg c ≤ Config.byteMax) :
      Effect s (.output c) (s.consoleOut ((s.reg c).setWidth 8))
  | inputByte {c : Reg} {v : Word} {k : Console} (hk : s.console.take = some (.byte v, k))
      (hv : v ≤ Config.byteMax) : Effect s (.input c) (State.setReg { s with console := k } c v)
  | inputEnd {c : Reg} {k : Console} (hk : s.console.take = some (.endOfStream, k)) :
      Effect s (.input c) (State.setReg { s with console := k } c Config.eosWord)
  | inputRaise {c : Reg} {v : Word} {k : Console} (hk : s.console.take = some (.byte v, k))
      (hv : Config.byteMax < v) : Effect s (.input c) (State.raise { s with console := k } .outOfRangeInput)
  | raise {i : Instr} {k : FaultKind} (hi : i.op ≠ .input) (hr : Raises k i s) : Effect s i (s.raise k)

theorem condHolds_iff {x : Word} : condHolds x = true ↔ x ≠ 0 := decide_eq_true_iff

/-- Executing an instruction in a next state is one of its effects. -/
theorem exec_effect {i : Instr} {s t : State} (h : exec i s = .next t) : Effect s i t := by
  cases i with
  | cmov a b c =>
    simp only [exec, execCmov] at h
    by_cases hc : s.reg c = 0
    · rw [if_neg (fun e => condHolds_iff.mp e hc)] at h; cases h; exact .cmovKeep hc
    · rw [if_pos (condHolds_iff.mpr hc)] at h; cases h; exact .cmovMove hc
  | add a b c => cases h; exact .add
  | mul a b c => cases h; exact .mul
  | nand a b c => cases h; exact .nand
  | ldi ia imm => cases h; exact .ldi
  | halt => cases h; exact .halt
  | div a b c =>
    simp only [exec, execDiv, divWord] at h
    by_cases hc : s.reg c = 0
    · rw [if_pos hc] at h; cases h; exact .raise nofun ⟨hc, rfl⟩
    · rw [if_neg hc] at h; cases h; exact .div hc
  | aidx a b c =>
    simp only [exec, execAidx, State.pairOperand] at h
    cases hr : s.memRead (s.reg b) (s.reg c) with
    | ok v =>
      obtain ⟨x, hx, ho, rfl⟩ := State.memRead_eq_ok.mp hr
      rw [hr] at h; cases h; exact .aidx hx ho
    | error k => rw [hr] at h; cases h; exact .raise nofun (State.memRead_eq_error.mp hr)
  | aupd a b c =>
    simp only [exec, execAupd, State.pairOperand] at h
    cases hw : s.memWrite (s.reg a) (s.reg b) (s.reg c) with
    | ok u =>
      obtain ⟨x, hx, ho, rfl⟩ := State.memWrite_eq_ok.mp hw
      rw [hw] at h; cases h; exact .aupd hx ho
    | error k => rw [hw] at h; cases h; exact .raise nofun (State.memWrite_eq_error.mp hw)
  | alloc b c =>
    simp only [exec, execAlloc] at h
    cases ha : s.allocate (s.reg c) with
    | ok r =>
      obtain ⟨n, hm, hf, h1, h2⟩ := State.allocate_eq_ok.mp ha
      rw [ha] at h; cases h
      simp only [h1, h2]
      exact .alloc hm hf
    | error k => rw [ha] at h; cases h; exact .raise nofun (State.allocate_eq_error.mp ha)
  | free c =>
    simp only [exec, execFree] at h
    cases hd : s.deallocate (s.reg c) with
    | ok u =>
      obtain ⟨h0, ha, rfl⟩ := State.deallocate_eq_ok.mp hd
      rw [hd] at h; cases h; exact .free h0 ha
    | error k => rw [hd] at h; cases h; exact .raise nofun (State.deallocate_eq_error.mp hd)
  | loadp b c =>
    simp only [exec, execLoadp] at h
    by_cases hb : s.reg b = 0
    · rw [if_pos hb] at h; cases h; exact .jump hb
    · rw [if_neg hb] at h
      cases hl : s.loadSource (s.reg b) with
      | ok x =>
        obtain ⟨hx, hf⟩ := State.loadSource_eq_ok.mp hl
        rw [hl] at h; cases h; exact .load hb hx hf
      | error k => rw [hl] at h; cases h; exact .raise nofun ⟨hb, State.loadSource_eq_error.mp hl⟩
  | output c =>
    simp only [exec, execOutput, outByte] at h
    by_cases hv : Config.byteMax < s.reg c
    · rw [if_pos hv] at h; cases h; exact .raise nofun ⟨hv, rfl⟩
    · rw [if_neg hv] at h; cases h; exact .output (BitVec.not_lt.mp hv)
  | input c =>
    simp only [exec, execInput] at h
    cases hk : s.console.take with
    | none => rw [hk] at h; cases h
    | some p =>
      obtain ⟨a, k⟩ := p
      rw [hk] at h
      cases a with
      | endOfStream => cases h; exact .inputEnd hk
      | byte v =>
        simp only [ConsoleAnswer.word] at h
        by_cases hv : Config.byteMax < v
        · rw [if_pos hv] at h; cases h; exact .inputRaise hk hv
        · rw [if_neg hv] at h; cases h; exact .inputByte hk (BitVec.not_lt.mp hv)

theorem exec_of_raises {i : Instr} {s : State} {k : FaultKind} (hi : i.op ≠ .input) (hr : Raises k i s) :
    exec i s = .next (s.raise k) := by
  cases i with
  | cmov a b c => exact hr.elim
  | add a b c => exact hr.elim
  | mul a b c => exact hr.elim
  | nand a b c => exact hr.elim
  | ldi ia imm => exact hr.elim
  | halt => exact hr.elim
  | input c => exact absurd rfl hi
  | div a b c => obtain ⟨hc, rfl⟩ := hr; simp only [exec, execDiv, divWord, if_pos hc]; rfl
  | aidx a b c => simp only [exec, execAidx, State.pairOperand, State.memRead_eq_error.mpr hr]; rfl
  | aupd a b c => simp only [exec, execAupd, State.pairOperand, State.memWrite_eq_error.mpr hr]; rfl
  | alloc b c => simp only [exec, execAlloc, State.allocate_eq_error.mpr hr]; rfl
  | free c => simp only [exec, execFree, State.deallocate_eq_error.mpr hr]; rfl
  | output c => obtain ⟨hv, rfl⟩ := hr; simp only [exec, execOutput, outByte, if_pos hv]; rfl
  | loadp b c =>
    simp only [exec, execLoadp, if_neg hr.1, State.loadSource_eq_error.mpr hr.2]; rfl

/-- Every effect is reached. -/
theorem exec_of_effect {i : Instr} {s t : State} (h : Effect s i t) : exec i s = .next t := by
  cases h with
  | cmovMove hc => simp only [exec, execCmov, if_pos (condHolds_iff.mpr hc)]
  | cmovKeep hc => simp only [exec, execCmov, if_neg (fun e => condHolds_iff.mp e hc)]
  | add => rfl
  | mul => rfl
  | nand => rfl
  | ldi => rfl
  | halt => rfl
  | div hc => simp only [exec, execDiv, divWord, if_neg hc]; rfl
  | aidx hx ho => simp only [exec, execAidx, State.pairOperand, State.memRead_eq_ok.mpr ⟨_, hx, ho, rfl⟩]; rfl
  | aupd hx ho => simp only [exec, execAupd, State.pairOperand, State.memWrite_eq_ok.mpr ⟨_, hx, ho, rfl⟩]; rfl
  | alloc hm hf => simp only [exec, execAlloc, State.allocate_eq_ok.mpr ⟨_, hm, hf, rfl, rfl⟩]; rfl
  | free h0 ha => simp only [exec, execFree, State.deallocate_eq_ok.mpr ⟨h0, ha, rfl⟩]; rfl
  | jump hb => simp only [exec, execLoadp, if_pos hb]
  | load hb hx hf =>
    simp only [exec, execLoadp, if_neg hb, State.loadSource_eq_ok.mpr ⟨hx, hf⟩]; rfl
  | output hv => simp only [exec, execOutput, outByte, if_neg (BitVec.not_lt.mpr hv)]; rfl
  | inputByte hk hv =>
    simp only [exec, execInput, hk, ConsoleAnswer.word, if_neg (BitVec.not_lt.mpr hv)]; rfl
  | inputEnd hk => simp only [exec, execInput, hk]; rfl
  | inputRaise hk hv => simp only [exec, execInput, hk, ConsoleAnswer.word, if_pos hv]; rfl
  | raise hi hr => exact exec_of_raises hi hr

/-- An instruction has a next state unless it is an IN that waits for its answer (R142). -/
theorem exec_total (i : Instr) (s : State) :
    (∃ t, exec i s = .next t) ∨ ∃ c, i = .input c ∧ s.console.take = none ∧ exec i s = .fault .inputHold := by
  cases i with
  | cmov a b c => exact .inl (by simp only [exec, execCmov]; split <;> exact ⟨_, rfl⟩)
  | add a b c => exact .inl ⟨_, rfl⟩
  | mul a b c => exact .inl ⟨_, rfl⟩
  | nand a b c => exact .inl ⟨_, rfl⟩
  | ldi ia imm => exact .inl ⟨_, rfl⟩
  | halt => exact .inl ⟨_, rfl⟩
  | div a b c => exact .inl (s.finish_isNext _)
  | aidx a b c => exact .inl (s.finish_isNext _)
  | aupd a b c => exact .inl (s.finish_isNext _)
  | alloc b c => exact .inl (s.finish_isNext _)
  | free c => exact .inl (s.finish_isNext _)
  | output c => exact .inl (s.finish_isNext _)
  | loadp b c =>
    refine .inl ?_
    simp only [exec, execLoadp]
    split
    · exact ⟨_, rfl⟩
    · exact s.finish_isNext _
  | input c =>
    simp only [exec, execInput]
    cases hk : s.console.take with
    | none => exact .inr ⟨c, rfl, rfl, rfl⟩
    | some p => exact .inl (State.finish_isNext _ _)

/-- The console answers unless its listed answers are used up and it is silent. -/
theorem Console.take_eq_none {k : Console} : k.take = none ↔ k.answers = [] ∧ k.atEnd = .silent := by
  unfold Console.take
  cases k.answers with
  | nil => cases k.atEnd <;> simp
  | cons a l => simp

/-- One request takes at most one answer, and puts nothing out. -/
theorem Console.take_some {k k' : Console} {a : ConsoleAnswer} (h : k.take = some (a, k')) :
    k'.output = k.output ∧ k'.requests = k.requests + 1 ∧ k'.atEnd = k.atEnd ∧
      (k.answers = a :: k'.answers ∨
        (k.answers = [] ∧ k'.answers = [] ∧ a = .endOfStream ∧ k.atEnd = .endOfStream)) := by
  unfold Console.take at h
  cases hk : k.answers with
  | nil =>
    cases he : k.atEnd with
    | endOfStream => simp [hk, he] at h; obtain ⟨rfl, rfl⟩ := h; simp
    | silent => simp [hk, he] at h
  | cons b l => simp [hk] at h; obtain ⟨rfl, rfl⟩ := h; simp

/-! ## The step -/

/-- What a step can do (R70): the fetch fault, the malformed tag, or the execution of the decoded instruction. -/
theorem step_cases {s t : State} (h : step s = .next t) :
    s.status = .running ∧
      ((∃ k, s.fetch = .error k ∧ t = s.raise k) ∨
        ∃ w, s.fetch = .ok w ∧
          ((14 ≤ fieldOp w ∧ t = s.advancePc.raise .malformedOperation) ∨
            ∃ i, decode w = .ok i ∧ exec i s.advancePc = .next t)) := by
  unfold step at h
  cases hs : s.status with
  | halted => simp [hs] at h
  | faulted k => simp [hs] at h
  | running =>
    refine ⟨rfl, ?_⟩
    simp only [hs] at h
    cases hf : s.fetch with
    | error k => rw [hf] at h; cases h; exact .inl ⟨k, rfl, rfl⟩
    | ok w =>
      rw [hf] at h
      refine .inr ⟨w, rfl, ?_⟩
      cases hd : decode w with
      | ok i => simp only [hd] at h; exact .inr ⟨i, rfl, h⟩
      | error e =>
        simp only [hd] at h; cases h
        refine .inl ⟨?_, rfl⟩
        by_contra hlt
        unfold decode at hd
        cases ho : opOfTag (fieldOp w) with
        | none =>
          simp only [opOfTag, opTable, List.getElem?_eq_none_iff, List.length_cons, List.length_nil] at ho
          omega
        | some o => rw [ho] at hd; cases hd

theorem step_of_decode {s : State} {w : Word} {i : Instr} (hs : s.status = .running) (hf : s.fetch = .ok w)
    (hd : decode w = .ok i) : step s = exec i s.advancePc := by
  unfold step
  simp [hs, hf, hd]

theorem step_of_fetch_error {s : State} {k : FaultKind} (hs : s.status = .running) (hf : s.fetch = .error k) :
    step s = .next (s.raise k) := by
  unfold step
  simp [hs, hf]

theorem step_of_decode_error {s : State} {w : Word} {e : DecodeError} (hs : s.status = .running)
    (hf : s.fetch = .ok w) (hd : decode w = .error e) :
    step s = .next (s.advancePc.raise .malformedOperation) := by
  unfold step
  simp [hs, hf, hd]

end Sys2Proof.Machine
end

