-- ==== Sys2Proof/Laws/PerInstr.lean ====
section
/-! SUPPORT. One family of per-instruction facts: the encoder gives a canonical word, with the operation's tag (R60: an
assembler writes 0 in every unexamined bit). -/

namespace Sys2Proof.Laws.EncodeCanonical

/-- The word of a well-formed instruction carries its operation's tag and is 0 in every bit the decoder does not
examine (R57, R60). -/
def Statement (i : Instr) : Prop :=
  i.wellFormed = true → fieldOp (encode i) = i.op.tag ∧ canonical (encode i) = true

/-- A word whose bits from `n` to 27 are 0 is unchanged by a mask that keeps the others. -/
theorem and_mask_self {w m : Word} {n : Nat}
    (hm : ∀ i : Fin 32, i.val < n ∨ 28 ≤ i.val → m.getLsbD i.val = true)
    (h : w.toNat % 2 ^ 28 < 2 ^ n) : w &&& m = w := by
  apply BitVec.eq_of_getLsbD_eq
  intro i hi
  rw [BitVec.getLsbD_and]
  by_cases hb : i < n ∨ 28 ≤ i
  · rw [hm ⟨i, hi⟩ hb, Bool.and_true]
  · have hpow : 2 ^ n ≤ 2 ^ i := Nat.pow_le_pow_right (by decide) (by omega)
    have h0 : (w.toNat % 2 ^ 28).testBit i = false := Nat.testBit_lt_two_pow (Nat.lt_of_lt_of_le h hpow)
    have h1 : w.getLsbD i = false := by
      rw [Nat.testBit_mod_two_pow] at h0
      simpa [BitVec.getLsbD, show i < 28 by omega] using h0
    rw [h1, Bool.false_and]

/-- A word with the tag of `o` that the mask of `o` leaves unchanged is canonical. -/
theorem canonical_of_mask {w : Word} {o : Op} (ht : fieldOp w = o.tag) (hm : w &&& o.mask = w) :
    canonical w = true := by
  simp [canonical, examined, ht, opOfTag_tag, hm]

/-- The word of an R3 operation whose fields lie below bit `n`, where the mask of the operation keeps the bits below `n`
and the tag. -/
theorem encodeR3_canonical {o : Op} {a b c : Reg} (n : Nat)
    (hm : ∀ i : Fin 32, i.val < n ∨ 28 ≤ i.val → o.mask.getLsbD i.val = true)
    (h : a.val * 64 + b.val * 8 + c.val < 2 ^ n) :
    fieldOp (encodeR3 o a b c) = o.tag ∧ canonical (encodeR3 o a b c) = true := by
  refine ⟨fieldOp_encodeR3 o a b c, canonical_of_mask (fieldOp_encodeR3 o a b c) (and_mask_self hm ?_)⟩
  have ha := a.isLt
  have hb := b.isLt
  have hc := c.isLt
  rw [encodeR3_toNat]
  omega

/-- Three used fields (CMOV, AIDX, AUPD, ADD, MUL, DIV, NAND). -/
theorem encodeR3_canonical_abc {o : Op} (hm : o.mask = 0xF00001FF) (a b c : Reg) :
    fieldOp (encodeR3 o a b c) = o.tag ∧ canonical (encodeR3 o a b c) = true := by
  have ha := a.isLt
  have hb := b.isLt
  have hc := c.isLt
  exact encodeR3_canonical 9 (by rw [hm]; decide) (by omega)

/-- Two used fields (ALLOC, LOADP). -/
theorem encodeR3_canonical_bc {o : Op} (hm : o.mask = 0xF000003F) (b c : Reg) :
    fieldOp (encodeR3 o 0 b c) = o.tag ∧ canonical (encodeR3 o 0 b c) = true := by
  have hb := b.isLt
  have hc := c.isLt
  exact encodeR3_canonical 6 (by rw [hm]; decide) (by simp; omega)

/-- One used field (FREE, OUT, IN). -/
theorem encodeR3_canonical_c {o : Op} (hm : o.mask = 0xF0000007) (c : Reg) :
    fieldOp (encodeR3 o 0 0 c) = o.tag ∧ canonical (encodeR3 o 0 0 c) = true := by
  have hc := c.isLt
  exact encodeR3_canonical 3 (by rw [hm]; decide) (by simp)

theorem cmov (a b c : Reg) : Statement (.cmov a b c) := fun _ => encodeR3_canonical_abc rfl a b c
theorem aidx (a b c : Reg) : Statement (.aidx a b c) := fun _ => encodeR3_canonical_abc rfl a b c
theorem aupd (a b c : Reg) : Statement (.aupd a b c) := fun _ => encodeR3_canonical_abc rfl a b c
theorem add (a b c : Reg) : Statement (.add a b c) := fun _ => encodeR3_canonical_abc rfl a b c
theorem mul (a b c : Reg) : Statement (.mul a b c) := fun _ => encodeR3_canonical_abc rfl a b c
theorem div (a b c : Reg) : Statement (.div a b c) := fun _ => encodeR3_canonical_abc rfl a b c
theorem nand (a b c : Reg) : Statement (.nand a b c) := fun _ => encodeR3_canonical_abc rfl a b c
theorem halt : Statement .halt := fun _ => encodeR3_canonical 0 (by decide) (by decide)
theorem alloc (b c : Reg) : Statement (.alloc b c) := fun _ => encodeR3_canonical_bc rfl b c
theorem free (c : Reg) : Statement (.free c) := fun _ => encodeR3_canonical_c rfl c
theorem output (c : Reg) : Statement (.output c) := fun _ => encodeR3_canonical_c rfl c
theorem input (c : Reg) : Statement (.input c) := fun _ => encodeR3_canonical_c rfl c
theorem loadp (b c : Reg) : Statement (.loadp b c) := fun _ => encodeR3_canonical_bc rfl b c

theorem ldi (ia : Reg) (imm : Nat) : Statement (.ldi ia imm) := by
  intro h
  have himm : imm ≤ 0x1FFFFFF := by simpa [Instr.wellFormed] using h
  have ht : fieldOp (encode (.ldi ia imm)) = Op.tag .ldi := fieldOp_encodeLI himm
  refine ⟨ht, canonical_of_mask ht ?_⟩
  exact BitVec.and_allOnes

end Sys2Proof.Laws.EncodeCanonical
end

