-- ==== Sys2Proof/Tests/Slice0.lean ====
section
/-! SUPPORT. Tests: expected results are the spec's (95_test_vectors.md, cited by section), and for every statement with
hypotheses a witness that meets them. -/

namespace Sys2Proof.Tests

open Sys2Proof Sys2Proof.Machine

/-! ## Well-formedness -/

/-- R59: 0x1FFFFFF is the largest immediate; one more is ill-formed. -/
theorem test_wellFormed_refuses_wide_immediate :
    Instr.wellFormed (.ldi 0 0x2000000) = false ∧ Instr.wellFormed (.ldi 0 0x1FFFFFF) = true := by decide

/-! ## Decoding: each word written field by field from R51 and R52 -/

theorem test_decode_cmov :
    decode (0b0000#4 ++ 0#19 ++ 0b110#3 ++ 0b101#3 ++ 0b001#3) = .ok (.cmov 6 5 1) := by decide
theorem test_decode_aidx :
    decode (0b0001#4 ++ 0#19 ++ 0b101#3 ++ 0b010#3 ++ 0b011#3) = .ok (.aidx 5 2 3) := by decide
theorem test_decode_aupd :
    decode (0b0010#4 ++ 0#19 ++ 0b010#3 ++ 0b011#3 ++ 0b100#3) = .ok (.aupd 2 3 4) := by decide
theorem test_decode_add :
    decode (0b0011#4 ++ 0#19 ++ 0b001#3 ++ 0b010#3 ++ 0b011#3) = .ok (.add 1 2 3) := by decide
theorem test_decode_mul :
    decode (0b0100#4 ++ 0#19 ++ 0b010#3 ++ 0b010#3 ++ 0b011#3) = .ok (.mul 2 2 3) := by decide
theorem test_decode_div :
    decode (0b0101#4 ++ 0#19 ++ 0b001#3 ++ 0b010#3 ++ 0b011#3) = .ok (.div 1 2 3) := by decide
theorem test_decode_nand :
    decode (0b0110#4 ++ 0#19 ++ 0b011#3 ++ 0b000#3 ++ 0b000#3) = .ok (.nand 3 0 0) := by decide
theorem test_decode_halt :
    decode (0b0111#4 ++ 0#19 ++ 0b000#3 ++ 0b000#3 ++ 0b000#3) = .ok .halt := by decide
theorem test_decode_alloc :
    decode (0b1000#4 ++ 0#19 ++ 0b000#3 ++ 0b010#3 ++ 0b001#3) = .ok (.alloc 2 1) := by decide
theorem test_decode_free :
    decode (0b1001#4 ++ 0#19 ++ 0b000#3 ++ 0b000#3 ++ 0b010#3) = .ok (.free 2) := by decide
theorem test_decode_output :
    decode (0b1010#4 ++ 0#19 ++ 0b000#3 ++ 0b000#3 ++ 0b111#3) = .ok (.output 7) := by decide
theorem test_decode_input :
    decode (0b1011#4 ++ 0#19 ++ 0b000#3 ++ 0b000#3 ++ 0b001#3) = .ok (.input 1) := by decide
theorem test_decode_loadp :
    decode (0b1100#4 ++ 0#19 ++ 0b000#3 ++ 0b010#3 ++ 0b000#3) = .ok (.loadp 2 0) := by decide
theorem test_decode_ldi :
    decode (0b1101#4 ++ 0b111#3 ++ 0b0000000000000000000100001#25) = .ok (.ldi 7 33) := by decide

/-- Section 2.1: bits 27 to 9 and unused fields are ignored; tags 14 and 15 are reported by name. -/
theorem test_decode_ignores_bits :
    decode 0x3FFFFE53 = decode 0x30000053 ∧ decode 0x7ABCDEF0 = .ok .halt ∧ decode 0x1234ABCD = .ok (.aidx 7 1 5) := by
  decide
theorem test_decode_malformed :
    decode 0xE0000000 = .error (.malformedOperation 14) ∧ decode 0xFFFFFFFF = .error (.malformedOperation 15) := by decide

/-- Section 2.1, encoder checks (R60). -/
theorem test_encode :
    encode (.ldi 7 0x1FFFFFF) = 0xDFFFFFFF ∧ encode (.ldi 3 0) = 0xD6000000 ∧ encode (.nand 3 0 0) = 0x600000C0 ∧
      encode (.cmov 6 5 1) = 0x000001A9 ∧ encode (.output 0) = 0xA0000000 := by decide

theorem test_decodeTableWord :
    decodeTableWord 32 0x80000011 = some (.alloc 2 1) ∧ decodeTableWord 32 0xE0000000 = none ∧
      decodeTableWord 64 0 = none := by decide

/-! ## Single steps on the before-state of section 2.3

`T[0]` is a program of 5 words whose first is the instruction under test; `T[1] = [0xA, 0xB, 0xC]`; `T[2]` has length 0;
`T[3]` is free; `x[7] = 0x77`. -/

def before (w : Word) (regs : List (Reg × Word)) : State :=
  let s : State := { State.reset with
    table := [(0, Arr.ofWords [w, 0, 0, 0, 0x12345678]), (1, Arr.ofWords [0xA, 0xB, 0xC]), (2, Arr.zeros 0)] }
  ((7, 0x77) :: regs).foldl (fun s r => s.setReg r.1 r.2) s

/-- The same with other coming answers of the console. -/
def asking (w : Word) (answers : List ConsoleAnswer) (e : AtEnd) (regs : List (Reg × Word)) : State :=
  { before w regs with console := ⟨answers, e, [], 0⟩ }

/-- The same with other parameters. -/
def bounded (w : Word) (slots : Nat) (capacity : Option Nat) (regs : List (Reg × Word)) : State :=
  { before w regs with params := ⟨slots, capacity⟩ }

/-- One thing seen of the state after one step. -/
def seen {α : Type} (s : State) (f : State → α) : Option α :=
  match step s with
  | .next t => some (f t)
  | .fault _ => none
  | .refused _ => none

theorem test_cmov_moves_on_high_bit :
    seen (before 0x00000053 [(1, 1), (2, 2), (3, 0x80000000)]) (fun t => (t.reg 1, t.pc)) = some (2, 1) := by decide
theorem test_cmov_keeps_on_zero :
    seen (before 0x00000053 [(1, 1), (2, 2), (3, 0)]) (fun t => (t.reg 1, t.pc)) = some (1, 1) := by decide
theorem test_add_wraps :
    seen (before 0x30000053 [(2, 0xFFFFFFFF), (3, 1)]) (fun t => (t.reg 1, t.status)) = some (0, .running) := by decide
theorem test_add_same_register :
    seen (before 0x30000049 [(1, 0x80000001)]) (fun t => t.reg 1) = some 2 := by decide
theorem test_mul_low_word :
    seen (before 0x40000053 [(2, 0x12345678), (3, 0x9ABCDEF0)]) (fun t => t.reg 1) = some 0x242D2080 := by decide
theorem test_mul_overflows_to_zero :
    seen (before 0x40000053 [(2, 0x10000), (3, 0x10000)]) (fun t => t.reg 1) = some 0 := by decide
theorem test_div_is_unsigned :
    seen (before 0x50000053 [(2, 0x80000000), (3, 3)]) (fun t => t.reg 1) = some 0x2AAAAAAA := by decide
theorem test_div_by_zero :
    seen (before 0x50000053 [(1, 0x11111111), (2, 7)]) (fun t => (t.reg 1, t.status, t.pc)) =
      some (0x11111111, .faulted .divisionByZero, 1) := by decide
theorem test_nand :
    seen (before 0x60000053 [(2, 0xF0F0F0F0), (3, 0xFF00FF00)]) (fun t => t.reg 1) = some 0x0FFF0FFF := by decide
theorem test_ldi_zero_extends :
    seen (before 0xDFFFFFFF []) (fun t => t.reg 7) = some 0x01FFFFFF := by decide
theorem test_aidx_last_offset :
    seen (before 0x100001CA [(1, 1), (2, 2)]) (fun t => (t.reg 7, t.status)) = some (0xC, .running) := by decide
theorem test_aidx_handle_before_offset :
    seen (before 0x100001CA [(1, 3), (2, 99)]) (fun t => (t.reg 7, t.status)) =
      some (0x77, .faulted .invalidHandle) := by decide
theorem test_aupd_writes_one_word :
    seen (before 0x20000053 [(1, 1), (2, 1), (3, 0xDEADBEEF)]) (fun t => t.array 1) =
      some (some (Arr.ofWords [0xA, 0xDEADBEEF, 0xC])) := by decide
theorem test_aupd_at_length_faults :
    seen (before 0x20000053 [(1, 1), (2, 3)]) (fun t => (t.array 1, t.status)) =
      some (some (Arr.ofWords [0xA, 0xB, 0xC]), .faulted .outOfBoundsOffset) := by decide
theorem test_alloc_same_register :
    seen (before 0x80000024 [(4, 2)]) (fun t => (t.reg 4, t.array 3)) = some (3, some (Arr.ofWords [0, 0])) := by decide
theorem test_alloc_full_table :
    seen (bounded 0x80000024 3 none [(4, 2)]) (fun t => (t.reg 4, t.status)) =
      some (2, .faulted .capacityExhausted) := by decide
theorem test_free_zero_length :
    seen (before 0x90000001 [(1, 2)]) (fun t => (t.array 2, t.reg 1, t.lowestFree)) = some (none, 2, some 2) := by decide
theorem test_free_handle_zero :
    seen (before 0x90000001 [(1, 0)]) (fun t => t.status) = some (.faulted .invalidHandle) := by decide
theorem test_halt :
    seen (before 0x70000000 []) (fun t => (t.status, t.pc)) = some (.halted, 1) := by decide
theorem test_output_255 :
    seen (before 0xA0000000 [(0, 255)]) (fun t => (t.console.output, t.status)) = some ([255], .running) := by decide
theorem test_output_256 :
    seen (before 0xA0000000 [(0, 256)]) (fun t => (t.console.output, t.status)) =
      some ([], .faulted .outOfRangeOutput) := by decide
theorem test_input_byte_ff :
    seen (asking 0xB0000001 [.byte 0xFF, .endOfStream] .silent [(1, 0x55)])
      (fun t => (t.reg 1, t.console.answers)) = some (0xFF, [.endOfStream]) := by decide
theorem test_input_end_of_stream :
    seen (asking 0xB0000001 [.endOfStream] .silent [(1, 0x55)]) (fun t => t.reg 1) = some 0xFFFFFFFF := by decide
theorem test_loadp_jump :
    seen (before 0xC0000006 [(6, 11)]) (fun t => (t.pc, t.table)) =
      some (11, (before 0xC0000006 []).table) := by decide
theorem test_loadp_replaces :
    seen (before 0xC000000E [(1, 1), (6, 2)]) (fun t => (t.pc, t.array 0, t.array 1)) =
      some (2, some (Arr.ofWords [0xA, 0xB, 0xC]), some (Arr.ofWords [0xA, 0xB, 0xC])) := by decide
theorem test_malformed_tag :
    seen (before 0xF1234567 []) (fun t => (t.status, t.pc)) = some (.faulted .malformedOperation, 1) := by decide
/-- Section 2.4 and program F11: the fetch check, with `pc` unchanged. -/
theorem test_fetch_off_the_end :
    seen ((before 0 []).setPc 5) (fun t => (t.status, t.pc)) = some (.faulted .outOfBoundsOffset, 5) := by decide
/-- Every row of the opcode table runs as the first instruction after reset. -/
theorem test_first_instruction_after_reset :
    (List.range 14).all (fun n => (seen (State.reset.withFetchWord 32 (n * 2 ^ 28)) fun t => t.pc).isSome) = true := by
  decide

/-! ## Witnesses: for every statement with hypotheses, states and operands that meet them -/

/-- A next state exists for a concrete state. -/
theorem seen_next {α : Type} {s : State} {f : State → α} {v : α} (h : seen s f = some v) :
    ∃ t, step s = .next t ∧ f t = v := by
  unfold seen at h
  cases hs : step s with
  | next t => rw [hs] at h; exact ⟨t, rfl, Option.some.inj h⟩
  | fault r => rw [hs] at h; cases h
  | refused r => rw [hs] at h; cases h

/-- The state after one step; the state itself where there is none. -/
def after (s : State) : State :=
  match step s with
  | .next t => t
  | .fault _ => s
  | .refused _ => s

/-- A concrete state is about to run a concrete instruction. -/
theorem about {s : State} {w : Word} {i : Instr} (hs : s.status = .running) (hf : s.fetch = .ok w)
    (hd : decode w = .ok i) : s.AboutToRun i := ⟨hs, w, hf, hd⟩

/-! ### The instructions, one witness per clause -/

theorem witness_CmovMovesWhenNotZero :
    (before 0x53 [(3, 0x80000000)]).reg 3 ≠ 0 ∧ ¬ (before 0x53 [(3, 0)]).reg 3 ≠ 0 := by decide
theorem witness_DivIsFloorOrFaults :
    (before 0x50000053 [(3, 1)]).reg 3 ≠ 0 ∧ (before 0x50000053 [(3, 0)]).reg 3 = 0 := by decide
theorem witness_NandIsBitwise : (31 : Nat) < 32 ∧ (0 : Nat) < 32 := by decide
theorem witness_LdiZeroExtends : (0x01FFFFFF : Nat) ≤ 0x01FFFFFF ∧ (0 : Nat) ≤ 0x01FFFFFF := by decide
/-- AIDX with handle `x[1]` and offset `x[2]`: the last offset; a free handle; an offset equal to the length, of an array
of three words and of one of none. -/
theorem witness_AidxLoadsOrFaults :
    (before 0x100001CA [(1, 1), (2, 2)]).array 1 = some (Arr.ofWords [0xA, 0xB, 0xC]) ∧ (2 : Word) < 3 ∧
    (before 0x100001CA [(1, 3)]).array 3 = none ∧ (before 0x100001CA [(1, 65536)]).array 65536 = none ∧
    (before 0x100001CA [(1, 1), (2, 3)]).array 1 = some (Arr.ofWords [0xA, 0xB, 0xC]) ∧ (3 : Word) ≤ 3 ∧
    (before 0x100001CA [(1, 2), (2, 0)]).array 2 = some (Arr.zeros 0) := by decide
theorem witness_AupdStoresOrFaults :
    (before 0x20000053 [(1, 0), (2, 4)]).array 0 = some (Arr.ofWords [0x20000053, 0, 0, 0, 0x12345678]) ∧
    (before 0x20000053 [(1, 0), (2, 4)]).reg 2 < 5 ∧
    (before 0x20000053 [(1, 3)]).array ((before 0x20000053 [(1, 3)]).reg 1) = none ∧
    (before 0x20000053 [(1, 0), (2, 5)]).array 0 = some (Arr.ofWords [0x20000053, 0, 0, 0, 0x12345678]) ∧
    (5 : Word) ≤ (before 0x20000053 [(1, 0), (2, 5)]).reg 2 := by decide
/-- ALLOC of two words: handle 3 is the lowest free and there is room to the last word; no handle free among three slots;
room for one word less. -/
theorem witness_AllocGivesLowestFree :
    (before 0x80000024 [(4, 2)]).params.maxHandles ≤ 2 ^ 32 ∧
    (bounded 0x80000024 4 (some 10) [(4, 2)]).MinFree 3 ∧
    (bounded 0x80000024 4 (some 10) [(4, 2)]).Fits ((bounded 0x80000024 4 (some 10) [(4, 2)]).usedAfterAlloc 2) ∧
    (∀ h, ¬ (bounded 0x80000024 3 none [(4, 2)]).InFreePool h) ∧
    ¬ (bounded 0x80000024 4 (some 9) [(4, 2)]).Fits ((bounded 0x80000024 4 (some 9) [(4, 2)]).usedAfterAlloc 2) :=
  ⟨by decide, State.lowestFree_eq_some.mp (by decide), State.fits_iff.mp (by decide),
    State.lowestFree_eq_none.mp (by decide), State.fits_eq_false.mp (by decide)⟩
theorem witness_FreeReleasesOrFaults :
    (before 0x90000001 [(1, 2)]).reg 1 ≠ 0 ∧ (before 0x90000001 [(1, 2)]).array 2 = some (Arr.zeros 0) ∧
    (before 0x90000001 [(1, 0)]).reg 1 = 0 ∧
    (before 0x90000001 [(1, 65536)]).params.maxHandles ≤ ((before 0x90000001 [(1, 65536)]).reg 1).toNat ∧
    (before 0x90000001 [(1, 65535)]).array ((before 0x90000001 [(1, 65535)]).reg 1) = none := by decide
theorem witness_HaltEndsTheRun : (0x7ABCDEF0 : Word).toNat / 2 ^ 28 = 7 := by decide
/-- LOADP with source `x[1]`: the jump; a source that fills the storage; a free source; one word of storage too few. -/
theorem witness_LoadpJumpsOrReplaces :
    (before 0xC000000E [(1, 0)]).reg 1 = 0 ∧ (before 0xC000000E [(1, 1)]).reg 1 ≠ 0 ∧
    (bounded 0xC000000E 4 (some 6) [(1, 1)]).array 1 = some (Arr.ofWords [0xA, 0xB, 0xC]) ∧
    (bounded 0xC000000E 4 (some 6) [(1, 1)]).Fits
      ((bounded 0xC000000E 4 (some 6) [(1, 1)]).usedAfterLoad (Arr.ofWords [0xA, 0xB, 0xC])) ∧
    (before 0xC000000E [(1, 3)]).array ((before 0xC000000E [(1, 3)]).reg 1) = none ∧
    ¬ (bounded 0xC000000E 4 (some 5) [(1, 1)]).Fits
      ((bounded 0xC000000E 4 (some 5) [(1, 1)]).usedAfterLoad (Arr.ofWords [0xA, 0xB, 0xC])) :=
  ⟨by decide, by decide, by decide, State.fits_iff.mp (by decide), by decide, State.fits_eq_false.mp (by decide)⟩
theorem witness_OutEmitsOneByteOrFaults :
    ((before 0xA0000000 [(0, 255)]).reg 0).toNat ≤ 255 ∧ 255 < ((before 0xA0000000 [(0, 256)]).reg 0).toNat := by decide
theorem witness_InWritesTheAnswer :
    (asking 0xB0000001 [] .endOfStream []).console.take = some (.endOfStream, ⟨[], .endOfStream, [], 1⟩) ∧
    (asking 0xB0000001 [.byte 255] .silent []).console.take = some (.byte 255, ⟨[], .silent, [], 1⟩) ∧
    (asking 0xB0000001 [.byte 256] .silent []).console.take = some (.byte 256, ⟨[], .silent, [], 1⟩) ∧
    (255 : Word).toNat ≤ 255 ∧ 255 < (256 : Word).toNat := by decide

/-! ### The step -/

/-- At the first word and at the last. -/
theorem witness_StepRunsDecodedInstruction :
    (before 0x30000053 []).status = .running ∧ (before 0x30000053 []).fetch = .ok 0x30000053 ∧
    decode 0x30000053 = .ok (.add 1 2 3) ∧
    ((before 0x30000053 []).setPc 4).fetch = .ok 0x12345678 ∧ decode 0x12345678 = .ok (.aidx 1 7 0) := by decide
theorem witness_FetchIsChecked :
    ((before 0 []).setPc 5).status = .running ∧
    ((before 0 []).setPc 5).array 0 = some (Arr.ofWords [0, 0, 0, 0, 0x12345678]) ∧
    (Arr.ofWords [0, 0, 0, 0, 0x12345678]).len ≤ ((before 0 []).setPc 5).pc ∧
    ((before 0 []).setPc 4).pc < (Arr.ofWords [0, 0, 0, 0, 0x12345678]).len := by decide
theorem witness_MalformedTagsFault :
    (before 0xE0000000 []).fetch = .ok 0xE0000000 ∧ (0xE0000000 : Word).toNat / 2 ^ 28 = 14 ∧
    (before 0xFFFFFFFF []).fetch = .ok 0xFFFFFFFF ∧ (0xFFFFFFFF : Word).toNat / 2 ^ 28 = 15 ∧
    (before 0xDFFFFFFF []).fetch = .ok 0xDFFFFFFF ∧ (0xDFFFFFFF : Word).toNat / 2 ^ 28 ≤ 13 := by decide
/-- A state held in IN, and one answer that ends the hold. -/
theorem witness_HoldEndsWithTheAnswer :
    (asking 0xB0000001 [] .silent []).AboutToRun (.input 1) ∧ (asking 0xB0000001 [] .silent []).console.take = none ∧
    (ConsoleAnswer.byte 255).word = .ok 255 ∧ ConsoleAnswer.endOfStream.word = .ok 0xFFFFFFFF :=
  ⟨about (by decide) (by decide) (w := 0xB0000001) (by decide), by decide, by decide, by decide⟩
theorem witness_StopsAreTerminalOrHold :
    (asking 0xB0000001 [] .silent []).Holding ∧ (after (before 0x70000000 [])).status = .halted ∧
    (after (before 0xE0000000 [])).status = .faulted .malformedOperation :=
  ⟨⟨1, about (by decide) (by decide) (w := 0xB0000001) (by decide), by decide⟩, by decide, by decide⟩

/-! ### Encoding -/

theorem witness_UnexaminedBitsAreIgnored :
    (0x3FFFFE53 : Word) &&& examined 0x3FFFFE53 = 0x30000053 &&& examined 0x3FFFFE53 ∧
    (0x7ABCDEF0 : Word) &&& examined 0x7ABCDEF0 = 0x70000000 &&& examined 0x7ABCDEF0 := by decide
theorem witness_DecodeOfEncodeIsIdentity :
    (Instr.ldi 7 0x1FFFFFF).wellFormed = true ∧ (Instr.cmov 7 7 7).wellFormed = true := by decide
theorem witness_EncodeOfDecodeIffCanonical :
    decode 0x3FFFFE53 = .ok (.add 1 2 3) ∧ canonical 0x3FFFFE53 = false ∧
    decode 0x30000053 = .ok (.add 1 2 3) ∧ canonical 0x30000053 = true := by decide

/-! ### The whole machine -/

/-- CMOV that does not move neither reads `x[B]` nor writes `x[A]`. -/
theorem witness_RegistersReadAndWrittenAsListed :
    exec (.cmov 1 2 3) (before 0 []) = .next (before 0 []) ∧ 2 ∉ registersRead (.cmov 1 2 3) (before 0 []) ∧
    1 ∉ registersWritten (.cmov 1 2 3) (before 0 []) ∧ 2 ∈ registersRead (.cmov 1 2 3) (before 0 [(3, 1)]) :=
  ⟨rfl, by decide, by decide, by decide⟩
/-- A completed ADD that writes a register it does not read. -/
theorem witness_RegistersReadAsListed :
    (before 0 []).status = .running ∧ 1 ∉ registersRead (.add 1 2 3) (before 0 []) ∧
    1 ∈ registersWritten (.add 1 2 3) (before 0 []) ∧
    ∃ t, exec (.add 1 2 3) (before 0 []) = .next t ∧ ∀ k, t.status ≠ .faulted k :=
  ⟨by decide, by decide, by decide, _, rfl, nofun⟩
/-- The four rows: the failed fetch, LOADP, another instruction, HALT or a fault. -/
theorem witness_PcAfterEachStep :
    ((before 0 []).setPc 5).fetch = .error .outOfBoundsOffset ∧
    seen ((before 0 []).setPc 5) State.pc = some 5 ∧
    seen (before 0xC0000006 [(6, 11)]) (fun t => (t.pc, t.status)) = some (11, .running) ∧
    seen (before 0xC000000E [(1, 3), (6, 11)]) (fun t => (t.pc, t.status)) = some (1, .faulted .invalidHandle) ∧
    seen (before 0x70000000 []) (fun t => (t.pc, t.status)) = some (1, .halted) := by decide
theorem witness_FaultsArePrecise :
    ∃ t, step (asking 0xB0000001 [.byte 256] .silent []) = .next t ∧ t.status = .faulted .outOfRangeInput :=
  seen_next (f := State.status) (by decide)
/-- The invariant from what can be computed on a concrete state. -/
theorem inv_of {s : State} (h1 : 1 ≤ s.params.maxHandles) (h2 : s.params.maxHandles ≤ 2 ^ 32) (h3 : s.table.wf)
    (h4 : ∀ e ∈ s.table, e.1 < s.params.maxHandles) (h5 : (s.array 0).isSome = true) (h6 : s.fits s.table.used = true) :
    Inv s := ⟨h1, h2, h3, h4, Option.isSome_iff_exists.mp h5, State.fits_iff.mp h6⟩
theorem witness_FaultsRaisedExactlyAsListed :
    Inv (before 0xE0000000 []) ∧
    ∃ t, step (before 0xE0000000 []) = .next t ∧ t.status = .faulted .malformedOperation :=
  ⟨inv_of (by decide) (by decide) (by decide) (by decide) (by decide) (by decide), seen_next (f := State.status) (by decide)⟩
theorem witness_StepKeepsInvariant :
    Inv (before 0x8000000F []) ∧ ∃ t, step (before 0x8000000F []) = .next t ∧ t.array 3 = some (Arr.zeros 0x77) :=
  ⟨inv_of (by decide) (by decide) (by decide) (by decide) (by decide) (by decide), seen_next (f := fun t => t.array 3) (by decide)⟩
theorem witness_OnlyHaltHalts : ∃ t, step (before 0x70000000 []) = .next t ∧ t.status = .halted :=
  seen_next (f := State.status) (by decide)
theorem witness_OutputOnlyByOut :
    (before 0xA0000007 []).AboutToRun (.output 7) ∧
    ∃ t, step (before 0xA0000007 []) = .next t ∧ (t.status, t.console.output) = (.running, [0x77]) :=
  ⟨about (by decide) (by decide) (w := 0xA0000007) (by decide),
    seen_next (f := fun t => (t.status, t.console.output)) (by decide)⟩
theorem witness_InputTakesOneAnswerInOrder :
    ∃ t, step (asking 0xB0000001 [.byte 1, .byte 2] .silent []) = .next t ∧ t.console.requests = 1 :=
  seen_next (f := fun t => t.console.requests) (by decide)
theorem witness_NoOutOfRangeInputUnderContract :
    (asking 0xB0000001 [.byte 255] .silent []).console.KeepsContract ∧
    ∃ t, step (asking 0xB0000001 [.byte 255] .silent []) = .next t ∧ t.status = .running :=
  ⟨by
    intro v hv
    have : ConsoleAnswer.byte v = .byte 255 := by simpa [asking] using hv
    cases this; decide,
    seen_next (f := State.status) (by decide)⟩
/-- Each of the four ways a word changes: AUPD, ALLOC, FREE, LOADP. -/
theorem witness_MemoryChangedOnlyByItsOperations :
    (∃ t, step (before 0x20000057 [(1, 1), (2, 2)]) = .next t ∧ t.memRead 1 2 = .ok 0x77) ∧
    (∃ t, step (before 0x8000000F []) = .next t ∧ t.memRead 3 0x76 = .ok 0) ∧
    (∃ t, step (before 0x90000001 [(1, 1)]) = .next t ∧ t.memRead 1 0 = .error .invalidHandle) ∧
    (∃ t, step (before 0xC000000E [(1, 1)]) = .next t ∧ t.memRead 0 0 = .ok 0xA) :=
  ⟨seen_next (f := fun t => t.memRead 1 2) (by decide), seen_next (f := fun t => t.memRead 3 0x76) (by decide),
    seen_next (f := fun t => t.memRead 1 0) (by decide), seen_next (f := fun t => t.memRead 0 0) (by decide)⟩
/-- Handle 0 changing its length, an array freed, a handle handed out. -/
theorem witness_ArrayManagerNeverDoes :
    (∃ t, step (before 0xC000000E [(1, 1)]) = .next t ∧ (t.array 0).map Arr.len = some 3) ∧
    (∃ t, step (before 0x90000001 [(1, 2)]) = .next t ∧ t.array 2 = none) ∧
    (∃ t, step (before 0x8000000F []) = .next t ∧ (t.status, t.array 3) = (.running, some (Arr.zeros 0x77))) ∧
    (before 0x8000000F []).AboutToRun (.alloc 1 7) ∧ (before 0x8000000F []).params.maxHandles ≤ 2 ^ 32 :=
  ⟨seen_next (f := fun t => (t.array 0).map Arr.len) (by decide), seen_next (f := fun t => t.array 2) (by decide),
    seen_next (f := fun t => (t.status, t.array 3)) (by decide),
    about (by decide) (by decide) (w := 0x8000000F) (by decide), by decide⟩
theorem witness_MemWriteChangesOneWord :
    (before 0 []).array 3 = none ∧ (before 0 []).array 1 = some (Arr.ofWords [0xA, 0xB, 0xC]) ∧
    (Arr.ofWords [0xA, 0xB, 0xC]).len ≤ 3 ∧ 2 < (Arr.ofWords [0xA, 0xB, 0xC]).len := by decide
theorem witness_ValidHandlesAreAllocatedSlots :
    Inv (before 0 []) ∧ (before 0 []).params.maxHandles ≤ (65536 : Word).toNat := ⟨inv_of (by decide) (by decide) (by decide) (by decide) (by decide) (by decide), by decide⟩
theorem witness_FreedHandleIsReusedLowestFirst :
    ∃ t u r, (before 0 []).allocate 2 = .ok (3, t) ∧ t.deallocate 3 = .ok u ∧ u.allocate 0xFFFFFFFF = .ok r :=
  ⟨_, _, _, rfl, rfl, rfl⟩
theorem witness_OrderOfFreeingDoesNotMatter :
    (1 : Word) ≠ 2 ∧ ∃ t u, (before 0 []).deallocate 1 = .ok t ∧ t.deallocate 2 = .ok u :=
  ⟨by decide, _, _, rfl, rfl⟩
theorem witness_LoadedProgramIsIndependent :
    ∃ t u v w, exec (.loadp 1 0) (before 0 [(1, 1)]) = .next t ∧ t.status = .running ∧ t.memWrite 1 2 7 = .ok u ∧
      t.memWrite 0 2 7 = .ok v ∧ t.deallocate 1 = .ok w :=
  ⟨_, _, _, _, rfl, rfl, rfl, rfl, rfl⟩
/-- Program P5 of 95_test_vectors.md in one step: a HALT word stored at the next offset. -/
theorem witness_StoreIsSeenByTheNextFetch :
    (before 0x20000053 [(2, 1), (3, 0x70000000)]).AboutToRun (.aupd 1 2 3) ∧
    (before 0x20000053 [(2, 1), (3, 0x70000000)]).reg 1 = 0 ∧
    (before 0x20000053 [(2, 1), (3, 0x70000000)]).reg 2 = (before 0x20000053 []).pc + 1 ∧
    ∃ t, step (before 0x20000053 [(2, 1), (3, 0x70000000)]) = .next t ∧ (t.status, t.fetch) = (.running, .ok 0x70000000) :=
  ⟨about (by decide) (by decide) (w := 0x20000053) (by decide), by decide, by decide,
    seen_next (f := fun t => (t.status, t.fetch)) (by decide)⟩
/-- A jump to the last word, and one to the length. -/
theorem witness_LoadpOffsetCaughtAtNextFetch :
    (before 0xC0000006 [(6, 4)]).AboutToRun (.loadp 0 6) ∧ (before 0xC0000006 [(6, 5)]).AboutToRun (.loadp 0 6) ∧
    (∃ t, step (before 0xC0000006 [(6, 4)]) = .next t ∧ (t.status, t.fetch) = (.running, .ok 0x12345678)) ∧
    ∃ t, step (before 0xC0000006 [(6, 5)]) = .next t ∧
      (t.status, t.array 0) = (.running, some (Arr.ofWords [0xC0000006, 0, 0, 0, 0x12345678])) :=
  ⟨about (by decide) (by decide) (w := 0xC0000006) (by decide),
    about (by decide) (by decide) (w := 0xC0000006) (by decide),
    seen_next (f := fun t => (t.status, t.fetch)) (by decide), seen_next (f := fun t => (t.status, t.array 0)) (by decide)⟩
theorem witness_IdiomsDoAsListed :
    (before 0 []).reg 0 = 0 ∧ (before 0 []).reg 7 ≠ 0 ∧ (before 0 [(1, 0xFFFFFFFF)]).reg 1 = 0xFFFFFFFF := by decide
/-- A step for the statements whose one hypothesis is a step (ParametersNeverChange, PastConsoleTrafficHasNoInfluence,
ControlStatesRefineStep). -/
theorem witness_step : ∃ t, step (before 0x30000053 []) = .next t ∧ t.pc = 1 := seen_next (f := State.pc) (by decide)

/-! ### Reset and boot -/

/-- Two words of program, and machines with one slot and with two words of storage or one. -/
def image : List Word := [0xD0000048, 0x70000000]

theorem witness_ResetDiscardsAllState :
    1 ≤ (bounded 0 1 (some 2) []).params.maxHandles ∧ image.length < 2 ^ 32 ∧
    (bounded 0 1 (some 2) []).Fits image.length := ⟨by decide, by decide, State.fits_iff.mp (by decide)⟩
/-- RESET of a halted machine. -/
theorem witness_BootMeetsInvariant :
    1 ≤ (bounded 0 1 (some 2) []).params.maxHandles ∧ (bounded 0 1 (some 2) []).params.maxHandles ≤ 2 ^ 32 ∧
    ∃ t, State.assertReset { bounded 0 1 (some 2) [] with status := .halted } image = .next t ∧
      t.array 0 = some (Arr.ofWords image) := ⟨by decide, by decide, _, rfl, by decide⟩
theorem witness_OversizedImageCannotBeBooted : ¬ (bounded 0 1 (some 1) []).Fits image.length :=
  State.fits_eq_false.mp (by decide)
/-- R201: one word of storage too few. -/
theorem test_boot_needs_storage : State.boot ⟨1, some 1⟩ image State.reset.console = .fault .cannotBoot := rfl
theorem witness_PlacedWordIsRun :
    0xDFFFFFFF < 2 ^ 32 ∧ decode (BitVec.ofNat 32 0xDFFFFFFF) = .ok (.ldi 7 0x1FFFFFF) ∧
    (State.reset.setPc 0xFFFFFFFF).pc = 0xFFFFFFFF := by decide

end Sys2Proof.Tests
end

section
/-! PROOF. The write primitive (R34): what a completed write reads back, what it leaves unchanged, and its checks. -/

namespace Sys2Proof.Machine

section CompletedWrite
variable {s t : State} {h o v : Word}

/-- The pair written to reads the word written. -/
theorem State.memRead_memWrite_same (hw : s.memWrite h o v = .ok t) : t.memRead h o = .ok v := by
  obtain ⟨a, _, ho, hta⟩ := State.memWrite_array_same hw
  exact State.memRead_eq_ok.mpr ⟨a.set o v, hta, ho, (Arr.get_set_same a o v).symm⟩

/-- Another offset of the array written to has the same bound and the same word, so it reads or faults as before. -/
theorem State.memRead_memWrite_other_offset {q : Word} (hw : s.memWrite h o v = .ok t) (hq : q ≠ o) :
    t.memRead h q = s.memRead h q := by
  obtain ⟨a, hsa, _, hta⟩ := State.memWrite_array_same hw
  simp only [State.memRead, hsa, hta, Arr.set_len, Arr.get_set_other a v hq]

/-- Every pair but the one written to reads as before. -/
theorem State.memRead_memWrite_other {h' o' : Word} (hw : s.memWrite h o v = .ok t) (hne : (h', o') ≠ (h, o)) :
    t.memRead h' o' = s.memRead h' o' := by
  by_cases hh : h' = h
  · subst hh
    exact State.memRead_memWrite_other_offset hw fun ho => hne (by rw [ho])
  · exact State.memRead_congr (State.memWrite_array_other hw hh) o'

/-- A write allocates and frees nothing and changes no length. -/
theorem State.memWrite_len (hw : s.memWrite h o v = .ok t) (q : Word) :
    (t.array q).map Arr.len = (s.array q).map Arr.len := by
  by_cases hq : q = h
  · subst hq
    obtain ⟨a, hsa, _, hta⟩ := State.memWrite_array_same hw
    rw [hsa, hta, Option.map_some, Option.map_some, Arr.set_len]
  · rw [State.memWrite_array_other hw hq]

/-- A write touches the table alone. -/
theorem State.memWrite_onlyTable (hw : s.memWrite h o v = .ok t) : OnlyRegsAndTable [] s t := by
  obtain ⟨_, _, _, rfl⟩ := State.memWrite_eq_ok.mp hw
  exact ⟨fun _ _ => rfl, rfl, rfl, rfl, rfl⟩

end CompletedWrite

/-- Settles O37: the two checks are the cases of `memWrite_eq_error`, and a write that passes both has the effect and
the frame above. -/
theorem memWriteChangesOneWord : Obligations.MemWriteChangesOneWord := by
  intro s h o v
  refine ⟨fun hnone => State.memWrite_eq_error.mpr (.inl ⟨hnone, rfl⟩), fun x hx => ⟨fun hlen => ?_, fun ho => ?_⟩⟩
  · exact State.memWrite_eq_error.mpr (.inr ⟨x, hx, hlen, rfl⟩)
  · have hw := State.memWrite_eq_ok (v := v).mpr ⟨x, hx, ho, rfl⟩
    exact ⟨_, hw, State.memRead_memWrite_same hw, fun _ _ => State.memRead_memWrite_other hw,
      State.memWrite_len hw, State.memWrite_onlyTable hw⟩

end Sys2Proof.Machine
end

section
/-! PROOF. The encoding (30_encoding.md): the decoder depends on the examined bits alone (R57), and every word but one
with tag 14 or 15 is a well-formed instruction, whose execution raises no MalformedOperation (R56, R75). -/

namespace Sys2Proof

section Agree
variable {w v m : Word} (h : w &&& m = v &&& m)
include h

/-- Words that agree under a mask have the same bits `hi` down to `lo` when the mask keeps all of those. -/
theorem bits_congr {hi lo : Nat} (hm : m.extractLsb hi lo = BitVec.allOnes _) : bits w hi lo = bits v hi lo := by
  have kept (u : Word) : (u &&& m).extractLsb hi lo = u.extractLsb hi lo := by
    rw [BitVec.extractLsb_and, hm, BitVec.and_allOnes]
  rw [bits, bits, ← kept w, ← kept v, h]

theorem regField_congr {lo : Nat} (hm : m.extractLsb (lo + 2) lo = BitVec.allOnes _) :
    regField w lo = regField v lo := by
  rw [regField, regField, bits_congr h hm]

end Agree

/-- Every word's examined bits include the tag (R57). -/
theorem examined_keeps_tag (w : Word) : (examined w).extractLsb 31 28 = BitVec.allOnes 4 := by
  unfold examined
  cases opOfTag (fieldOp w) with
  | none => decide
  | some o => cases o <;> decide

theorem examined_of_opOfTag {w : Word} {o : Op} (ho : opOfTag (fieldOp w) = some o) : examined w = o.mask := by
  simp only [examined, ho]

/-- An operation makes one instruction of the words that agree on the bits it examines: its mask keeps every field it
uses (R55, R57). -/
theorem Op.instr_congr {o : Op} {w v : Word} (h : w &&& o.mask = v &&& o.mask) : o.instr w = o.instr v := by
  cases o with
  | cmov | aidx | aupd | add | mul | div | nand =>
    have ha : fieldA w = fieldA v := regField_congr h (by decide)
    have hb : fieldB w = fieldB v := regField_congr h (by decide)
    have hc : fieldC w = fieldC v := regField_congr h (by decide)
    simp only [Op.instr, ha, hb, hc]
  | halt => rfl
  | alloc | loadp =>
    have hb : fieldB w = fieldB v := regField_congr h (by decide)
    have hc : fieldC w = fieldC v := regField_congr h (by decide)
    simp only [Op.instr, hb, hc]
  | free | output | input =>
    have hc : fieldC w = fieldC v := regField_congr h (by decide)
    simp only [Op.instr, hc]
  | ldi =>
    have hia : fieldIA w = fieldIA v := regField_congr h (by decide)
    have himm : fieldIMM w = fieldIMM v := bits_congr h (by decide)
    simp only [Op.instr, hia, himm]

/-- Settles O23: the two words have one tag, since every mask keeps it; with a defined tag they have one operation, which
reads only bits its mask keeps, and with another tag both are reported with that tag. -/
theorem unexaminedBitsAreIgnored : Obligations.UnexaminedBitsAreIgnored := by
  intro w v h
  have htag : fieldOp w = fieldOp v := bits_congr h (examined_keeps_tag w)
  cases ho : opOfTag (fieldOp w) with
  | none => simp only [decode, ← htag, ho]
  | some o =>
    rw [examined_of_opOfTag ho] at h
    simp only [decode, ← htag, ho, Op.instr_congr h]

/-- The only bounded field, IMM of LDI, has 25 bits (R54, R59). -/
theorem Op.instr_wellFormed (o : Op) (w : Word) : (o.instr w).wellFormed = true := by
  cases o with
  | ldi => exact decide_eq_true (Nat.le_of_lt_succ (bits_le w 24 0))
  | _ => rfl

/-- A word with tag 0 to 13 is a well-formed instruction (R55, R56). -/
theorem decode_wellFormed_of_tag_le {w : Word} (h : fieldOp w ≤ 13) :
    ∃ i, decode w = .ok i ∧ i.wellFormed = true := by
  cases ho : opOfTag (fieldOp w) with
  | none => exact absurd (opOfTag_eq_none.mp ho) (by omega)
  | some o => exact ⟨o.instr w, by simp only [decode, ho], o.instr_wellFormed w⟩

namespace Machine

/-- An effect that ends a running engine in fault `k` is a row of R170's table. -/
theorem Effect.raises_of_faulted {s t : State} {i : Instr} {k : FaultKind} (he : Effect s i t)
    (hs : s.status = .running) (ht : t.status = .faulted k) : Raises k i s := by
  cases he with
  | raise _ hr => cases ht; exact hr
  | inputRaise hk hv => cases ht; exact ⟨_, _, hk, hv, rfl⟩
  | halt => cases ht
  | _ => exact Status.noConfusion (hs.symm.trans ht)

/-- No access to an array raises MalformedOperation. -/
theorem not_accessRaises_malformedOperation {s : State} {h o : Word} : ¬ AccessRaises .malformedOperation s h o := by
  rintro (⟨_, hk⟩ | ⟨_, _, _, hk⟩) <;> cases hk

/-- MalformedOperation is the dispatcher's own: no instruction's row of R170's table has it. -/
theorem not_raises_malformedOperation {i : Instr} {s : State} : ¬ Raises .malformedOperation i s := by
  intro hr
  cases i with
  | cmov | add | mul | nand | halt | ldi => exact hr
  | aidx | aupd => exact not_accessRaises_malformedOperation hr
  | div | alloc | free | output => exact nomatch hr.2
  | input => obtain ⟨_, _, _, _, hk⟩ := hr; cases hk
  | loadp => obtain ⟨_, ⟨_, hk⟩ | ⟨_, _, _, hk⟩⟩ := hr <;> cases hk

/-- Settles O17: a tag of 14 or 15 is the decoder's error, which the dispatcher turns into the fault; any other word
decodes, and the step is then an effect of its instruction, none of which is MalformedOperation. -/
theorem malformedTagsFault : Obligations.MalformedTagsFault := by
  intro s w hs hf
  rw [← fieldOp_eq]
  refine ⟨fun htag => ?_, fun htag => ?_⟩
  · have hd := decode_malformed (w := w) (by omega)
    exact ⟨_, step_of_decode_error hs hf hd, s.advancePc.raise_faultTaken .malformedOperation⟩
  · obtain ⟨i, hd, hwf⟩ := decode_wellFormed_of_tag_le htag
    refine ⟨⟨i, hd, hwf⟩, fun t hstep hfault => ?_⟩
    rw [step_of_decode hs hf hd] at hstep
    exact not_raises_malformedOperation ((exec_effect hstep).raises_of_faulted hs hfault)

end Machine
end Sys2Proof
end

section
/-! PROOF. The register operations (41_register_ops.md): the encoder's word is read as the instruction (R60), the words
the operations compute as numbers and bits (R91 to R95), and what a register write leaves unchanged. -/

namespace Sys2Proof

/-- The word of a well-formed instruction is read as that instruction (R60). -/
theorem decode_encode {i : Instr} (h : i.wellFormed = true) : decode (encode i) = .ok i := by
  cases i with
  | cmov | aidx | aupd | add | mul | div | nand | halt | alloc | free | output | input | loadp =>
    simp only [encode, decode_encodeR3, Op.instr, fieldA_encodeR3, fieldB_encodeR3, fieldC_encodeR3]
  | ldi ia imm =>
    have himm : imm ≤ 0x1FFFFFF := of_decide_eq_true h
    rw [encode, decode_of_tag (o := .ldi) (fieldOp_encodeLI himm), Op.instr, fieldIA_encodeLI himm,
      fieldIMM_encodeLI himm]

namespace Machine

theorem encodesAs_of_toNat {i : Instr} {n : Nat} (hwf : i.wellFormed = true) (hn : (encode i).toNat = n) :
    EncodesAs i n :=
  ⟨hn, decode_encode hwf⟩

/-! ## The words computed -/

theorem addWord_toNat (x y : Word) : (addWord x y).toNat = (x.toNat + y.toNat) % 2 ^ 32 :=
  BitVec.toNat_ofNat ..

theorem mulWord_toNat (x y : Word) : (mulWord x y).toNat = (x.toNat * y.toNat) % 2 ^ 32 :=
  BitVec.toNat_ofNat ..

/-- The quotient is at most the dividend, so it is a word. -/
theorem quotient_toNat (x y : Word) : (BitVec.ofNat 32 (x.toNat / y.toNat)).toNat = x.toNat / y.toNat :=
  (BitVec.toNat_ofNat ..).trans (Nat.mod_eq_of_lt (Nat.lt_of_le_of_lt (Nat.div_le_self ..) x.isLt))

theorem nandWord_getLsbD (x y : Word) {n : Nat} (hn : n < 32) :
    (nandWord x y).getLsbD n = !(x.getLsbD n && y.getLsbD n) := by
  rw [nandWord, BitVec.getLsbD_not, BitVec.getLsbD_and, decide_eq_true hn, Bool.true_and]

/-- A number of 25 bits is the value of its zero extension (R54). -/
theorem immOperand_toNat {imm : Nat} (h : imm ≤ 0x1FFFFFF) : (immOperand imm).toNat = imm := by
  simp only [immOperand, BitVec.toNat_setWidth, BitVec.toNat_ofNat]
  omega

/-! ## Writing one register -/

theorem OnlyRegs.refl (rs : List Reg) (s : State) : OnlyRegs rs s s :=
  ⟨fun _ _ => rfl, rfl, rfl, rfl, rfl, rfl⟩

theorem State.setReg_onlyRegs (s : State) (r : Reg) (v : Word) : OnlyRegs [r] s (s.setReg r v) :=
  ⟨fun q hq => s.setReg_reg_other r q v (List.ne_of_not_mem_cons hq), rfl, rfl, rfl, rfl, rfl⟩

/-- An instruction whose effect is one register write completes with that write and its frame. -/
theorem Effect.exec_setReg {s : State} {i : Instr} {r : Reg} {v : Word} (he : Effect s i (s.setReg r v)) :
    ∃ t, exec i s = .next t ∧ OnlyRegs [r] s t ∧ t.reg r = v :=
  ⟨_, exec_of_effect he, s.setReg_onlyRegs r v, s.setReg_reg_same r v⟩

/-! ## The six operations -/

/-- Settles O1: the effect is `cmovMove` or `cmovKeep`, by the condition on the whole word. -/
theorem cmovMovesWhenNotZero : Obligations.CmovMovesWhenNotZero := by
  intro a b c s
  refine ⟨encodesAs_of_toNat rfl (encodeR3_toNat .cmov a b c), ?_⟩
  by_cases hc : s.reg c = 0
  · exact ⟨s, exec_of_effect (.cmovKeep hc), .refl [a] s, (if_neg (not_not_intro hc)).symm⟩
  · rw [if_pos hc]
    exact (Effect.cmovMove hc).exec_setReg

/-- Settles O2: the effect is the write of `addWord`. -/
theorem addIsModulo2To32 : Obligations.AddIsModulo2To32 := by
  intro a b c s
  obtain ⟨t, hexec, hframe, hreg⟩ := (Effect.add (s := s) (a := a) (b := b) (c := c)).exec_setReg
  exact ⟨encodesAs_of_toNat rfl (encodeR3_toNat .add a b c), t, hexec, hframe, by rw [hreg, addWord_toNat]⟩

/-- Settles O3: the effect is the write of `mulWord`. -/
theorem mulIsLowProduct : Obligations.MulIsLowProduct := by
  intro a b c s
  obtain ⟨t, hexec, hframe, hreg⟩ := (Effect.mul (s := s) (a := a) (b := b) (c := c)).exec_setReg
  exact ⟨encodesAs_of_toNat rfl (encodeR3_toNat .mul a b c), t, hexec, hframe, by rw [hreg, mulWord_toNat]⟩

/-- Settles O4: a divisor that is not 0 writes the quotient, and 0 is DIV's row of R170's table. -/
theorem divIsFloorOrFaults : Obligations.DivIsFloorOrFaults := by
  intro a b c s
  refine ⟨encodesAs_of_toNat rfl (encodeR3_toNat .div a b c), fun hc => ?_, fun hc => ?_⟩
  · obtain ⟨t, hexec, hframe, hreg⟩ := (Effect.div (a := a) (b := b) hc).exec_setReg
    exact ⟨t, hexec, hframe, by rw [hreg, quotient_toNat]⟩
  · exact ⟨_, exec_of_raises nofun ⟨hc, rfl⟩, s.raise_faultTaken .divisionByZero⟩

/-- Settles O5: the effect is the write of `nandWord`. -/
theorem nandIsBitwise : Obligations.NandIsBitwise := by
  intro a b c s
  obtain ⟨t, hexec, hframe, hreg⟩ := (Effect.nand (s := s) (a := a) (b := b) (c := c)).exec_setReg
  refine ⟨encodesAs_of_toNat rfl (encodeR3_toNat .nand a b c), t, hexec, hframe, fun n hn => ?_⟩
  rw [hreg, nandWord_getLsbD _ _ hn]

/-- Settles O6: the effect is the write of `immOperand`, whose 25 bits hold every immediate allowed. -/
theorem ldiZeroExtends : Obligations.LdiZeroExtends := by
  intro ia imm s himm
  obtain ⟨t, hexec, hframe, hreg⟩ := (Effect.ldi (s := s) (ia := ia) (imm := imm)).exec_setReg
  exact ⟨encodesAs_of_toNat (decide_eq_true himm) (encodeLI_toNat himm), t, hexec, hframe,
    by rw [hreg, immOperand_toNat himm]⟩

end Machine
end Sys2Proof
end

section
/-! PROOF. The array operations (42_array_ops.md): what a completed Allocate (R104) and Deallocate (R106) do to the table
and leave unchanged, that deallocations commute (R105), and the four instructions written with them. -/

namespace Sys2Proof.Machine

/-! ## The handle allocator -/

/-- A handle of the free pool of a table of at most 2^32 slots is the value of a word. -/
theorem State.InFreePool.toNat_ofNat {s : State} {h : Nat} (hfree : s.InFreePool h)
    (hslots : s.params.maxHandles ≤ 2 ^ 32) : (BitVec.ofNat 32 h).toNat = h := by
  obtain ⟨_, hlt, _⟩ := hfree
  exact (BitVec.toNat_ofNat ..).trans (Nat.mod_eq_of_lt (hlt.trans_le hslots))

section CompletedAllocate
variable {s t : State} {n r : Word}

/-- Allocate touches the table alone. -/
theorem State.allocate_onlyTable (ha : s.allocate n = .ok (r, t)) : OnlyRegsAndTable [] s t := by
  obtain ⟨_, _, _, _, rfl⟩ := State.allocate_eq_ok.mp ha
  exact ⟨fun _ _ => rfl, rfl, rfl, rfl, rfl⟩

variable (hslots : s.params.maxHandles ≤ 2 ^ 32)
include hslots

/-- The handle returned is the minimum of the free pool, and is the key of the new array. -/
theorem State.allocate_handle (ha : s.allocate n = .ok (r, t)) :
    s.MinFree r.toNat ∧ t = { s with table := put r.toNat (Arr.zeros n) s.table } := by
  obtain ⟨h, hmin, _, rfl, rfl⟩ := State.allocate_eq_ok.mp ha
  rw [hmin.1.toNat_ofNat hslots]
  exact ⟨hmin, rfl⟩

theorem State.allocate_array_same (ha : s.allocate n = .ok (r, t)) : t.array r = some (Arr.zeros n) := by
  obtain ⟨⟨⟨_, hlt, _⟩, _⟩, rfl⟩ := State.allocate_handle hslots ha
  exact State.array_put_same hlt _

theorem State.allocate_array_other {q : Word} (ha : s.allocate n = .ok (r, t)) (hq : q ≠ r) :
    t.array q = s.array q := by
  obtain ⟨_, rfl⟩ := State.allocate_handle hslots ha
  exact State.array_put_other (mt BitVec.eq_of_toNat_eq hq) _

end CompletedAllocate

section CompletedDeallocate
variable {s t : State} {h : Word}

/-- Deallocate touches the table alone. -/
theorem State.deallocate_onlyTable (hd : s.deallocate h = .ok t) : OnlyRegsAndTable [] s t := by
  obtain ⟨_, _, rfl⟩ := State.deallocate_eq_ok.mp hd
  exact ⟨fun _ _ => rfl, rfl, rfl, rfl, rfl⟩

theorem State.deallocate_array_same (hd : s.deallocate h = .ok t) : t.array h = none := by
  obtain ⟨_, _, rfl⟩ := State.deallocate_eq_ok.mp hd
  exact State.array_del_same h

theorem State.deallocate_array_other {q : Word} (hd : s.deallocate h = .ok t) (hq : q ≠ h) :
    t.array q = s.array q := by
  obtain ⟨_, _, rfl⟩ := State.deallocate_eq_ok.mp hd
  exact State.array_del_other (mt BitVec.eq_of_toNat_eq hq)

/-- The handle freed is back in the free pool (R16). -/
theorem State.deallocate_inFreePool (hd : s.deallocate h = .ok t) : t.InFreePool h.toNat := by
  obtain ⟨hne, halloc, rfl⟩ := State.deallocate_eq_ok.mp hd
  obtain ⟨a, ha⟩ := Option.ne_none_iff_exists'.mp halloc
  have hpos : h.toNat ≠ 0 := fun hzero => hne (BitVec.eq_of_toNat_eq hzero)
  exact ⟨Nat.one_le_iff_ne_zero.mpr hpos, (State.array_eq_some.mp ha).1, find_del_same _ _⟩

end CompletedDeallocate

/-- Settles O40: each handle is still allocated after the other is freed, since Deallocate leaves every other slot
alone, and unlisting two keys commutes. -/
theorem orderOfFreeingDoesNotMatter : Obligations.OrderOfFreeingDoesNotMatter := by
  intro s t u h k hne hh hk
  obtain ⟨hk0, hkt, rfl⟩ := State.deallocate_eq_ok.mp hk
  obtain ⟨hh0, hhs, ht⟩ := State.deallocate_eq_ok.mp hh
  rw [State.deallocate_array_other hh hne.symm] at hkt
  have hk' := State.deallocate_eq_ok.mpr ⟨hk0, hkt, rfl⟩
  rw [← State.deallocate_array_other hk' hne] at hhs
  refine ⟨_, hk', State.deallocate_eq_ok.mpr ⟨hh0, hhs, ?_⟩⟩
  simp only [ht, del_comm k.toNat]

/-! ## The four instructions -/

/-- An instruction whose fault condition is met takes that fault and writes nothing else (R171). -/
theorem exec_faultTaken {i : Instr} {s : State} {k : FaultKind} (hi : i.op ≠ .input) (hr : Raises k i s) :
    ∃ t, exec i s = .next t ∧ FaultTaken k s t :=
  ⟨_, exec_of_raises hi hr, s.raise_faultTaken k⟩

theorem OnlyRegsAndTable.setReg {rs : List Reg} {s t : State} (hframe : OnlyRegsAndTable rs s t) (r : Reg)
    (v : Word) : OnlyRegsAndTable (r :: rs) s (t.setReg r v) := by
  obtain ⟨hregs, hpc, hstatus, hparams, hconsole⟩ := hframe
  refine ⟨fun q hq => ?_, hpc, hstatus, hparams, hconsole⟩
  rw [t.setReg_reg_other r q v (List.ne_of_not_mem_cons hq), hregs q (List.not_mem_of_not_mem_cons hq)]

/-- Settles O7: a pair that exists is the effect `aidx`, and the two faults are the cases of `AccessRaises`. -/
theorem aidxLoadsOrFaults : Obligations.AidxLoadsOrFaults := by
  intro a b c s
  refine ⟨encodesAs_of_toNat rfl (encodeR3_toNat .aidx a b c),
    fun x hx ho => ?_, fun hnone => ?_, fun x hx hlen => ?_⟩
  · exact (Effect.aidx hx ho).exec_setReg
  · exact exec_faultTaken nofun (.inl ⟨hnone, rfl⟩)
  · exact exec_faultTaken nofun (.inr ⟨x, hx, hlen, rfl⟩)

/-- Settles O8: the effect `aupd` is a completed write, so the rules of the write primitive (R34) give its result and
its frame. -/
theorem aupdStoresOrFaults : Obligations.AupdStoresOrFaults := by
  intro a b c s
  refine ⟨encodesAs_of_toNat rfl (encodeR3_toNat .aupd a b c),
    fun x hx ho => ?_, fun hnone => ?_, fun x hx hlen => ?_⟩
  · have hw := State.memWrite_eq_ok (v := s.reg c).mpr ⟨x, hx, ho, rfl⟩
    exact ⟨_, exec_of_effect (.aupd hx ho), State.memWrite_onlyTable hw, State.memRead_memWrite_same hw,
      fun _ _ => State.memRead_memWrite_other hw, State.memWrite_len hw⟩
  · exact exec_faultTaken nofun (.inl ⟨hnone, rfl⟩)
  · exact exec_faultTaken nofun (.inr ⟨x, hx, hlen, rfl⟩)

/-- Settles O9: the effect `alloc` is a completed Allocate and the write of its handle to `x[B]`. -/
theorem allocGivesLowestFree : Obligations.AllocGivesLowestFree := by
  intro b c s hslots
  refine ⟨encodesAs_of_toNat rfl (encodeR3_toNat .alloc 0 b c),
    fun h hmin hfits => ?_, fun hempty => ?_, fun hfull => ?_⟩
  · have ha := State.allocate_eq_ok.mpr ⟨h, hmin, hfits, rfl, rfl⟩
    refine ⟨_, exec_of_effect (.alloc hmin hfits), (State.allocate_onlyTable ha).setReg b _, ?_⟩
    simp only [State.setReg_reg_same, State.setReg_array]
    exact ⟨hmin.1.toNat_ofNat hslots,
      ⟨_, State.allocate_array_same hslots ha, Arr.zeros_len _, Arr.zeros_get _⟩,
      fun _ => State.allocate_array_other hslots ha⟩
  · exact exec_faultTaken nofun ⟨.inl hempty, rfl⟩
  · exact exec_faultTaken nofun ⟨.inr hfull, rfl⟩

/-- Settles O10: the effect `free` is a completed Deallocate; a handle out of range is not allocated. -/
theorem freeReleasesOrFaults : Obligations.FreeReleasesOrFaults := by
  intro c s
  refine ⟨encodesAs_of_toNat rfl (encodeR3_toNat .free 0 0 c),
    fun x hne hx => ?_, fun hbad => ?_⟩
  · have halloc : s.array (s.reg c) ≠ none := Option.ne_none_iff_exists'.mpr ⟨x, hx⟩
    have hd := State.deallocate_eq_ok.mpr ⟨hne, halloc, rfl⟩
    exact ⟨_, exec_of_effect (.free hne halloc), State.deallocate_onlyTable hd, State.deallocate_array_same hd,
      State.deallocate_inFreePool hd, fun _ => State.deallocate_array_other hd⟩
  · have hrefused : s.reg c = 0 ∨ s.array (s.reg c) = none := by
      obtain hzero | hrange | hnone := hbad
      · exact .inl hzero
      · exact .inr (State.array_eq_none.mpr (.inl hrange))
      · exact .inr hnone
    exact exec_faultTaken nofun ⟨hrefused, rfl⟩

end Sys2Proof.Machine
end

section
/-! PROOF. Engine control (43_control_ops.md): the end of a run at HALT (R120), the two ways LOADP completes (R121), what
each leaves in the table (R122, R125), and the fetch after it (R124). -/

namespace Sys2Proof.Machine

/-! ## HALT -/

/-- From a halted state there is no step (R71). -/
theorem step_of_halted {s : State} (hs : s.status = .halted) : step s = .fault .halted := by
  simp only [step, hs]

/-- Settles O11: any word with tag 7 is the operation HALT, which uses no field, and its effect writes the status. -/
theorem haltEndsTheRun : Obligations.HaltEndsTheRun := by
  refine ⟨encodesAs_of_toNat rfl (encodeR3_toNat .halt 0 0 0), fun w hw => ?_, fun s => ?_⟩
  · exact decode_of_tag (o := .halt) ((fieldOp_eq w).trans hw)
  · exact ⟨_, exec_of_effect .halt, rfl, ⟨fun _ => rfl, rfl, rfl, rfl, rfl⟩, step_of_halted rfl⟩

/-! ## LOADP -/

/-- A table that holds an array has a slot 0. -/
theorem State.one_le_maxHandles_of_array {s : State} {h : Word} {x : Arr} (hx : s.array h = some x) :
    1 ≤ s.params.maxHandles :=
  Nat.one_le_of_lt (State.array_eq_some.mp hx).1

/-- The two ways LOADP completes (R121): the jump, and the replacement of the program by an allocated source. -/
theorem Effect.loadp_completed {b c : Reg} {s t : State} (he : Effect s (.loadp b c) t)
    (ht : t.status = .running) :
    (s.reg b = 0 ∧ t = s.setPc (s.reg c)) ∨
      (s.reg b ≠ 0 ∧ ∃ x, s.array (s.reg b) = some x ∧ t = (s.replace0 x).setPc (s.reg c)) := by
  cases he with
  | jump hb => exact .inl ⟨hb, rfl⟩
  | load hb hx _ => exact .inr ⟨hb, _, hx, rfl⟩
  | raise _ _ => cases ht

theorem Effect.loadp_completed_pc {b c : Reg} {s t : State} (he : Effect s (.loadp b c) t)
    (ht : t.status = .running) : t.pc = s.reg c := by
  obtain ⟨_, rfl⟩ | ⟨_, _, _, rfl⟩ := he.loadp_completed ht <;> rfl

/-- Settles O12: a jump and a copy that fits are the effects `jump` and `load`, and the two faults are LOADP's row of
R170's table. -/
theorem loadpJumpsOrReplaces : Obligations.LoadpJumpsOrReplaces := by
  intro b c s
  refine ⟨encodesAs_of_toNat rfl (encodeR3_toNat .loadp 0 b c),
    fun hb => ?_, fun x hb hx hfits => ?_, fun hb hnone => ?_, fun x hb hx hfull => ?_⟩
  · exact ⟨_, exec_of_effect (.jump hb), rfl, fun _ => rfl, rfl, rfl, rfl, rfl⟩
  · exact ⟨_, exec_of_effect (.load hb hx hfits), rfl, fun _ => rfl,
      State.replace0_array_zero (State.one_le_maxHandles_of_array hx) x,
      fun _ hh => State.replace0_array_other (s := s) hh x, rfl, rfl, rfl⟩
  · exact exec_faultTaken nofun ⟨hb, .inl ⟨hnone, rfl⟩⟩
  · exact exec_faultTaken nofun ⟨hb, .inr ⟨x, hx, hfull, rfl⟩⟩

/-- After a LOADP from another handle the program and its source are equal arrays under two handles (R125). -/
theorem exec_loadp_array_zero {b c : Reg} {s t : State} (hb : s.reg b ≠ 0)
    (hexec : exec (.loadp b c) s = .next t) (ht : t.status = .running) : t.array 0 = t.array (s.reg b) := by
  obtain ⟨hzero, _⟩ | ⟨_, x, hx, rfl⟩ := (exec_effect hexec).loadp_completed ht
  · exact absurd hzero hb
  · rw [State.setPc_array, State.setPc_array, State.replace0_array_other hb, hx,
      State.replace0_array_zero (State.one_le_maxHandles_of_array hx)]

/-- Settles O41: the two handles name equal arrays, and differ, so a write to one or a FREE of one leaves every pair of
the other alone. -/
theorem loadedProgramIsIndependent : Obligations.LoadedProgramIsIndependent := by
  intro b c s t _ hb hexec ht
  have hequal : t.array 0 = t.array (s.reg b) := exec_loadp_array_zero hb hexec ht
  refine ⟨fun o => ?_, fun o v u hw q => ?_, fun o v u hw q => ?_, fun u hd q => ?_⟩
  · simp only [State.memRead, hequal]
  · exact State.memRead_congr (State.memWrite_array_other hw hb.symm) q
  · exact State.memRead_congr (State.memWrite_array_other hw hb) q
  · exact State.memRead_congr (State.deallocate_array_other hd hb.symm) q

/-- Settles O43: both ways LOADP completes leave `pc` at the target, and the fetch check compares that with the length
of the program then active. -/
theorem loadpOffsetCaughtAtNextFetch : Obligations.LoadpOffsetCaughtAtNextFetch := by
  rintro b c s t x ⟨hs, w, hf, hd⟩ hstep ht hx
  rw [step_of_decode hs hf hd] at hstep
  have hpc : t.pc = s.reg c := (exec_effect hstep).loadp_completed_pc ht
  rw [← hpc]
  refine ⟨rfl, fun ho => ?_, fun hlen => ?_⟩
  · exact State.memRead_eq_ok.mpr ⟨x, hx, ho, rfl⟩
  · have hfault : t.fetch = .error .outOfBoundsOffset := State.memRead_eq_error.mpr (.inr ⟨x, hx, hlen, rfl⟩)
    exact ⟨_, step_of_fetch_error ht hfault, t.raise_faultTaken _⟩

end Sys2Proof.Machine
end

section
/-! PROOF. The control states (R78 of 40_engine_cycle.md, R123 of 43_control_ops.md): the moves of the finer machine, and
the states each operation passes through to the end of the step. -/

namespace Sys2Proof.Machine

/-- From `m` the finer machine comes to the end of the step in state `t`, in one to `k` moves. -/
def SettlesWithin (k : Nat) (m : Micro) (t : State) : Prop :=
  ∃ n, 1 ≤ n ∧ n ≤ k ∧ microRun n m = some t.settle

theorem SettlesWithin.last {k : Nat} {m : Micro} {t : State} (h : micro m = some t.settle) :
    SettlesWithin (k + 1) m t :=
  ⟨1, Nat.le_refl 1, Nat.le_add_left 1 k, by rw [microRun, h]; rfl⟩

theorem SettlesWithin.move {k : Nat} {m m' : Micro} {t : State} (h : micro m = some m')
    (hrest : SettlesWithin k m' t) : SettlesWithin (k + 1) m t := by
  obtain ⟨n, _, hle, hrun⟩ := hrest
  exact ⟨n + 1, Nat.le_add_left 1 n, Nat.succ_le_succ hle, by rw [microRun, h]; exact hrun⟩

/-! ## The moves -/

theorem micro_sFetch_ok {s : State} {w : Word} (hf : s.fetch = .ok w) :
    micro ⟨.sFetch, s⟩ = some ⟨.sDecode w, s.advancePc⟩ := by
  simp only [micro, hf]

theorem micro_sFetch_error {s : State} {k : FaultKind} (hf : s.fetch = .error k) :
    micro ⟨.sFetch, s⟩ = some (s.raise k).settle := by
  simp only [micro, hf]

theorem micro_sDecode_ok {s : State} {w : Word} {i : Instr} (hd : decode w = .ok i) :
    micro ⟨.sDecode w, s⟩ = some ⟨.sExec (some i), s⟩ := by
  simp only [micro, hd, Except.toOption]

theorem micro_sDecode_error {s : State} {w : Word} {e : DecodeError} (hd : decode w = .error e) :
    micro ⟨.sDecode w, s⟩ = some ⟨.sExec none, s⟩ := by
  simp only [micro, hd, Except.toOption]

/-- Every operation but IN and LOADP completes in `S_EXEC` (R78). -/
theorem micro_sExec_of_next {i : Instr} {s t : State} (hin : i.op ≠ .input) (hlp : i.op ≠ .loadp)
    (h : exec i s = .next t) : micro ⟨.sExec (some i), s⟩ = some t.settle := by
  cases i with
  | input c => exact absurd rfl hin
  | loadp b c => exact absurd rfl hlp
  | _ => simp only [micro, execStage, h, settleOutcome]

theorem micro_sInWait_of_next {c : Reg} {s t : State} (h : exec (.input c) s = .next t) :
    micro ⟨.sInWait c, s⟩ = some t.settle := by
  simp only [micro, h, settleOutcome]

theorem micro_sLpCheck_jump {b c : Reg} {s : State} (hb : s.reg b = 0) :
    micro ⟨.sLpCheck b c, s⟩ = some ⟨.sLpSetPc (s.reg c), s⟩ := by
  simp only [micro, lpCheck, if_pos hb]

theorem micro_sLpCheck_ok {b c : Reg} {s : State} {x : Arr} (hb : s.reg b ≠ 0)
    (hl : s.loadSource (s.reg b) = .ok x) :
    micro ⟨.sLpCheck b c, s⟩ = some ⟨.sLpCopy (s.reg b) (s.reg c), s⟩ := by
  simp only [micro, lpCheck, if_neg hb, hl]

theorem micro_sLpCheck_error {b c : Reg} {s : State} {k : FaultKind} (hb : s.reg b ≠ 0)
    (hl : s.loadSource (s.reg b) = .error k) :
    micro ⟨.sLpCheck b c, s⟩ = some (s.raise k).settle := by
  simp only [micro, lpCheck, if_neg hb, hl]

theorem micro_sLpCopy {h o : Word} {s : State} {x : Arr} (hx : s.array h = some x) :
    micro ⟨.sLpCopy h o, s⟩ = some ⟨.sLpCommit x o, s⟩ := by
  simp only [micro, hx, Option.map_some]

/-! ## From a control state to the end of the step -/

/-- The self-load protocol (R123): check and set `pc` for a jump, check alone for a fault, all four states for a load. -/
theorem settlesWithin_sLpCheck {b c : Reg} {s t : State} (he : Effect s (.loadp b c) t) :
    SettlesWithin 4 ⟨.sLpCheck b c, s⟩ t := by
  cases he with
  | jump hb => exact .move (micro_sLpCheck_jump hb) (.last rfl)
  | load hb hx hf =>
    have hsource := State.loadSource_eq_ok.mpr ⟨hx, hf⟩
    exact .move (micro_sLpCheck_ok hb hsource) (.move (micro_sLpCopy hx) (.move rfl (.last rfl)))
  | raise _ hr =>
    obtain ⟨hb, hbad⟩ := hr
    exact .last (micro_sLpCheck_error hb (State.loadSource_eq_error.mpr hbad))

/-- From `S_EXEC` the finer machine ends where `exec` does: IN by way of `S_INWAIT`, LOADP by its own states. -/
theorem settlesWithin_sExec {i : Instr} {s t : State} (h : exec i s = .next t) :
    SettlesWithin 5 ⟨.sExec (some i), s⟩ t := by
  cases i with
  | input c => exact .move rfl (.last (micro_sInWait_of_next h))
  | loadp b c => exact .move rfl (settlesWithin_sLpCheck (exec_effect h))
  | _ => exact .last (micro_sExec_of_next nofun nofun h)

/-- Settles O56: each way a step can end is a path of the finer machine, the longest a LOADP that copies: fetch, decode
and execute, then the four states of the self-load protocol. -/
theorem controlStatesRefineStep : Obligations.ControlStatesRefineStep := by
  intro s t hstep
  change SettlesWithin 7 ⟨.sFetch, s⟩ t
  obtain ⟨_, ⟨k, hf, rfl⟩ | ⟨w, hf, ⟨htag, rfl⟩ | ⟨i, hd, hexec⟩⟩⟩ := step_cases hstep
  · exact .last (micro_sFetch_error hf)
  · exact .move (micro_sFetch_ok hf) (.move (micro_sDecode_error (decode_malformed htag)) (.last rfl))
  · exact .move (micro_sFetch_ok hf) (.move (micro_sDecode_ok hd) (settlesWithin_sExec hexec))

end Sys2Proof.Machine
end

section
/-! PROOF. The console operations (44_console_ops.md): OUT and the byte it puts out (R140), IN and the answer it takes
(R141), the hold of an unanswered IN and what ends it (R142), and the ways of having no step (R71). -/

namespace Sys2Proof.Machine

/-- The greatest value at the console boundary, as a number (R5). -/
theorem le_byteMax_iff {v : Word} : v ≤ Config.byteMax ↔ v.toNat ≤ 255 := BitVec.le_def

theorem byteMax_lt_iff {v : Word} : Config.byteMax < v ↔ 255 < v.toNat := BitVec.lt_def

/-! ## OUT -/

/-- The byte OUT puts out has the value of the whole word (R140). -/
theorem setWidth_toNat_of_le_byteMax {v : Word} (hv : v ≤ Config.byteMax) : (v.setWidth 8).toNat = v.toNat := by
  rw [BitVec.toNat_setWidth, Nat.mod_eq_of_lt (Nat.lt_succ_of_le (le_byteMax_iff.mp hv))]

/-- Settles O13: a value of at most 255 is the effect `output`, and a greater one OUT's row of R170's table. -/
theorem outEmitsOneByteOrFaults : Obligations.OutEmitsOneByteOrFaults := by
  intro c s
  refine ⟨encodesAs_of_toNat rfl (encodeR3_toNat .output 0 0 c), fun hle => ?_, fun hlt => ?_⟩
  · have hv := le_byteMax_iff.mpr hle
    exact ⟨_, _, exec_of_effect (.output hv), ⟨fun _ _ => rfl, rfl, rfl, rfl, rfl⟩,
      setWidth_toNat_of_le_byteMax hv, rfl⟩
  · exact exec_faultTaken nofun ⟨byteMax_lt_iff.mpr hlt, rfl⟩

/-- An effect leaves the output as it was, or is an OUT that puts its byte out. -/
theorem Effect.output_cases {i : Instr} {s t : State} (he : Effect s i t) :
    t.console.output = s.console.output ∨
      ∃ c, i = .output c ∧ s.reg c ≤ Config.byteMax ∧ t = s.consoleOut ((s.reg c).setWidth 8) := by
  cases he with
  | output hv => exact .inr ⟨_, rfl, hv, rfl⟩
  | inputByte hk _ | inputEnd hk | inputRaise hk _ =>
    obtain ⟨houtput, _⟩ := Console.take_some hk
    exact .inl houtput
  | _ => exact .inl rfl

/-- The one way OUT completes (R140). -/
theorem Effect.output_completed {c : Reg} {s t : State} (he : Effect s (.output c) t) (ht : t.status = .running) :
    s.reg c ≤ Config.byteMax ∧ t = s.consoleOut ((s.reg c).setWidth 8) := by
  cases he with
  | output hv => exact ⟨hv, rfl⟩
  | raise _ _ => cases ht

/-- The step runs the instruction the engine is about to run, with `pc` advanced (R70). -/
theorem State.AboutToRun.step_eq {s : State} {i : Instr} (h : s.AboutToRun i) : step s = exec i s.advancePc := by
  obtain ⟨hs, w, hf, hd⟩ := h
  exact step_of_decode hs hf hd

/-- A step leaves the output as it was, or is an OUT that completes with its byte put out. -/
theorem step_output_cases {s t : State} (hstep : step s = .next t) :
    t.console.output = s.console.output ∨
      ∃ c, s.AboutToRun (.output c) ∧ s.reg c ≤ Config.byteMax ∧
        t = s.advancePc.consoleOut ((s.reg c).setWidth 8) := by
  obtain ⟨hs, ⟨k, _, rfl⟩ | ⟨w, hf, ⟨_, rfl⟩ | ⟨i, hd, hexec⟩⟩⟩ := step_cases hstep
  · exact .inl rfl
  · exact .inl rfl
  · obtain hsame | ⟨c, rfl, hv, ht⟩ := (exec_effect hexec).output_cases
    · exact .inl hsame
    · exact .inr ⟨c, ⟨hs, w, hf, hd⟩, hv, ht⟩

/-- Settles O32: the output changes in a completed OUT alone, which leaves the engine running. -/
theorem outputOnlyByOut : Obligations.OutputOnlyByOut := by
  intro s t hstep
  refine ⟨?_, fun c hout ht => ?_, fun ht => ?_⟩
  · obtain hsame | ⟨c, hout, hv, rfl⟩ := step_output_cases hstep
    · exact .inl hsame
    · exact .inr ⟨c, _, hout, setWidth_toNat_of_le_byteMax hv, rfl⟩
  · rw [hout.step_eq] at hstep
    obtain ⟨hv, rfl⟩ := (exec_effect hstep).output_completed ht
    exact ⟨_, setWidth_toNat_of_le_byteMax hv, rfl⟩
  · obtain hsame | ⟨_, ⟨hs, _⟩, _, rfl⟩ := step_output_cases hstep
    · exact hsame
    · exact absurd hs ht

/-! ## IN -/

/-- The byte of an answer is its word, zero-extended (R141). -/
theorem ConsoleAnswer.word_byte_of_le {v : Word} (hv : v ≤ Config.byteMax) : (ConsoleAnswer.byte v).word = .ok v :=
  if_neg (BitVec.not_lt.mpr hv)

/-- An answered IN writes the answer's word and consumes the answer (R141). -/
theorem exec_input_answered {c : Reg} {s : State} {a : ConsoleAnswer} {k : Console} {v : Word}
    (hk : s.console.take = some (a, k)) (hw : a.word = .ok v) :
    ∃ t, exec (.input c) s = .next t ∧ OnlyRegsAndConsole [c] s t ∧ t.reg c = v ∧ t.console = k := by
  refine ⟨State.setReg { s with console := k } c v, ?_, ⟨fun q hq => ?_, rfl, rfl, rfl, rfl⟩, ?_, rfl⟩
  · simp only [exec, execInput, hk, hw]
    rfl
  · exact State.setReg_reg_other _ _ _ _ (List.ne_of_not_mem_cons hq)
  · exact State.setReg_reg_same _ _ _

/-- Settles O14: end of stream and a byte are answers with a word, and a value above 255 is the effect `inputRaise`. -/
theorem inWritesTheAnswer : Obligations.InWritesTheAnswer := by
  intro c s
  refine ⟨encodesAs_of_toNat rfl (encodeR3_toNat .input 0 0 c),
    fun k hk => ?_, fun v k hk hle => ?_, fun v k hk hlt => ?_⟩
  · exact exec_input_answered hk rfl
  · exact exec_input_answered hk (ConsoleAnswer.word_byte_of_le (le_byteMax_iff.mpr hle))
  · exact ⟨_, exec_of_effect (.inputRaise hk (byteMax_lt_iff.mpr hlt)), State.raise_faultTaken _ _⟩

/-! ## The hold -/

/-- IN without an answer is not enabled (R142, D11). -/
theorem exec_input_unanswered {c : Reg} {s : State} (hk : s.console.take = none) :
    exec (.input c) s = .fault .inputHold := by
  simp only [exec, execInput, hk]

theorem State.Holding.step_eq {s : State} (h : s.Holding) : step s = .fault .inputHold := by
  obtain ⟨c, hin, hk⟩ := h
  exact hin.step_eq.trans (exec_input_unanswered hk)

theorem State.Holding.running {s : State} (h : s.Holding) : s.status = .running := by
  obtain ⟨_, ⟨hs, _⟩, _⟩ := h
  exact hs

/-- What a silent console answers once one answer is delivered: that answer, and it has none left (R153). -/
theorem State.deliver_take {s : State} (hk : s.console.take = none) (a : ConsoleAnswer) :
    (s.deliver a).console.take =
      some (a, ⟨[], s.console.atEnd, s.console.output, s.console.requests + 1⟩) := by
  obtain ⟨hanswers, _⟩ := Console.take_eq_none.mp hk
  simp only [State.deliver, Console.take, hanswers, List.nil_append]

/-- The console has no part in the fetch (R72). -/
theorem State.AboutToRun.deliver {s : State} {i : Instr} (h : s.AboutToRun i) (a : ConsoleAnswer) :
    (s.deliver a).AboutToRun i := h

/-- Settles O20: the answer delivered is the one the next request takes, so the same IN is then an answered one. -/
theorem holdEndsWithTheAnswer : Obligations.HoldEndsWithTheAnswer := by
  intro s c a v hin hk hw
  obtain ⟨t, hexec, ⟨hregs, hpc, htable, hstatus, hparams⟩, hreg, hconsole⟩ :=
    exec_input_answered (c := c) (s := (s.deliver a).advancePc) (State.deliver_take hk a) hw
  exact ⟨State.Holding.step_eq ⟨c, hin, hk⟩, t, (hin.deliver a).step_eq.trans hexec,
    ⟨hregs, hpc, htable, hstatus, hparams⟩, hreg, hconsole⟩

/-- Settles O57: fetch, decode and execute lead to `S_INWAIT`, where IN is tried: not enabled while unanswered, and with
an answer always enabled, whatever the answer. -/
theorem holdWaitsInItsControlState : Obligations.HoldWaitsInItsControlState := by
  rintro s c ⟨_, w, hf, hd⟩ hk
  refine ⟨?_, ?_, fun a => ?_⟩
  · simp only [microRun, micro_sFetch_ok hf, micro_sDecode_ok hd, Option.bind_some]
    rfl
  · simp only [micro, exec_input_unanswered (s := s.setPc (s.pc + 1)) hk, settleOutcome]
  · have htake := State.deliver_take (s := s.setPc (s.pc + 1)) hk a
    obtain ⟨t, hexec⟩ | ⟨_, _, hnone, _⟩ := exec_total (.input c) ((s.setPc (s.pc + 1)).deliver a)
    · exact ⟨t, micro_sInWait_of_next hexec⟩
    · cases htake.symm.trans hnone

/-! ## The ways of having no step -/

/-- From a faulted state there is no step (R71). -/
theorem step_of_faulted {s : State} {k : FaultKind} (hs : s.status = .faulted k) : step s = .fault (.stopped k) := by
  simp only [step, hs]

/-- A running engine has a step unless it is held in IN (R71, R142). -/
theorem step_of_running {s : State} (hs : s.status = .running) : (∃ t, step s = .next t) ∨ s.Holding := by
  cases hf : s.fetch with
  | error k => exact .inl ⟨_, step_of_fetch_error hs hf⟩
  | ok w =>
    cases hd : decode w with
    | error e => exact .inl ⟨_, step_of_decode_error hs hf hd⟩
    | ok i =>
      obtain ⟨t, hexec⟩ | ⟨c, rfl, hk, _⟩ := exec_total i s.advancePc
      · exact .inl ⟨t, (step_of_decode hs hf hd).trans hexec⟩
      · exact .inr ⟨c, ⟨hs, w, hf, hd⟩, hk⟩

/-- Settles O18: a state with a step is running, and a held one has none. -/
theorem stepExistsIffRunningAndNotHeld : Obligations.StepExistsIffRunningAndNotHeld := by
  intro s
  constructor
  · rintro ⟨t, hstep⟩
    obtain ⟨hs, _⟩ := step_cases hstep
    exact ⟨hs, fun hhold => nomatch hhold.step_eq.symm.trans hstep⟩
  · rintro ⟨hs, hfree⟩
    exact (step_of_running hs).resolve_right hfree

/-- Settles O19: by the status, and for a running engine by whether it is held, the answer of the step is one of four,
all different. -/
theorem stopsAreTerminalOrHold : Obligations.StopsAreTerminalOrHold := by
  intro s
  cases hs : s.status with
  | halted =>
    have hfree : ¬ s.Holding := fun hhold => nomatch hs.symm.trans hhold.running
    simp [step_of_halted hs, hfree]
  | faulted k =>
    have hfree : ¬ s.Holding := fun hhold => nomatch hs.symm.trans hhold.running
    simp [step_of_faulted hs, hfree]
  | running =>
    obtain ⟨t, hstep⟩ | hhold := step_of_running hs
    · obtain ⟨_, hfree⟩ := (stepExistsIffRunningAndNotHeld s).mp ⟨t, hstep⟩
      simp [hstep, hfree]
    · simp [hhold.step_eq, hhold]

end Sys2Proof.Machine
end

section
/-! PROOF. RESET and the boot of an image (70_reset_and_hazards.md): what the reset state holds (R200), and the images
that have none (R201). -/

namespace Sys2Proof.Machine

/-! ## The reset state of an image -/

section BootState
variable {params : Config.Params} {image : List Word} {console : Console}

@[simp] theorem State.bootState_reg (r : Reg) : (State.bootState params image console).reg r = 0 :=
  Vector.getElem_replicate r.isLt

/-- Handle 0 is the image (R151), in a table of at least one slot. -/
theorem State.bootState_array_zero (hm : 1 ≤ params.maxHandles) :
    (State.bootState params image console).array 0 = some (Arr.ofWords image) :=
  State.array_eq_some.mpr ⟨hm, rfl⟩

/-- Every handle but 0 is free. -/
theorem State.bootState_array_other {h : Word} (hh : h ≠ 0) :
    (State.bootState params image console).array h = none := by
  have hkey : 0 ≠ h.toNat := fun e => hh (BitVec.eq_of_toNat_eq e.symm)
  exact State.array_eq_none.mpr (.inr (if_neg hkey))

/-- The words of an image that a word can count stand in its array in order (R151). -/
theorem Arr.ofWords_get_ofNat (hlen : image.length < 2 ^ 32) {n : Nat} (hn : n < image.length) :
    (Arr.ofWords image).get (BitVec.ofNat 32 n) = image[n] := by
  have hoffset : (BitVec.ofNat 32 n).toNat = n := Nat.mod_eq_of_lt (hn.trans hlen)
  rw [Arr.ofWords_get, hoffset, List.getElem?_eq_getElem hn, Option.getD_some]

end BootState

/-- Settles O47: an image that can be booted leads to its reset state, and that state is read field by field. -/
theorem resetDiscardsAllState : Obligations.ResetDiscardsAllState := by
  intro s image hm hlen hfits
  exact ⟨State.bootState s.params image s.console, State.assertReset_eq_next.mpr ⟨⟨hlen, hfits⟩, rfl⟩,
    State.bootState_reg, rfl, rfl,
    ⟨Arr.ofWords image, State.bootState_array_zero hm, Arr.ofWords_len hlen, fun _ => Arr.ofWords_get_ofNat hlen⟩,
    fun _ => State.bootState_array_other, rfl, rfl⟩

/-! ## Images that cannot be booted -/

/-- A RESET that leads to no state leaves the finer machine in `S_RESET` (R78, R201). -/
theorem micro_sReset_of_fault {s : State} {image : List Word} {f : Fault} (h : s.assertReset image = .fault f) :
    micro ⟨.sReset image, s⟩ = none := by
  simp only [micro, h, settleOutcome]

/-- Settles O58: an image is booted only when it fits the storage and a word can count it, and one of the two fails. -/
theorem oversizedImageCannotBeBooted : Obligations.OversizedImageCannotBeBooted := by
  intro s image hbig
  have hstop : s.assertReset image = .fault .cannotBoot :=
    State.assertReset_eq_fault.mpr fun ⟨hlen, hfits⟩ => hbig.elim (· hfits) (Nat.not_le_of_lt hlen)
  exact ⟨hstop, micro_sReset_of_fault hstop⟩

end Sys2Proof.Machine
end

section
/-! PROOF. Decode and encode as inverses (30_encoding.md): which words decode and to what (R53, R55, R56), and when the
encoding of a decoded word is that word (R57, R60). -/

namespace Sys2Proof

/-- Settles O24: by the fields of the encoded word, for each operation. -/
theorem decodeOfEncodeIsIdentity : Obligations.DecodeOfEncodeIsIdentity := fun _ hwf => decode_encode hwf

/-- Settles O21: each word by evaluation of the decoder. -/
theorem specWordsDecode : Obligations.SpecWordsDecode := by
  unfold Obligations.SpecWordsDecode
  decide

/-! ## What a word decodes to -/

/-- No operation stands twice in the opcode map, so an operation found under a tag has that tag. -/
theorem tag_of_opOfTag {n : Nat} {o : Op} (h : opOfTag n = some o) : o.tag = n := by
  obtain ⟨hn, rfl⟩ := List.getElem?_eq_some_iff.mp h
  exact List.Nodup.idxOf_getElem (by decide) n hn

theorem Op.instr_op (o : Op) (w : Word) : (o.instr w).op = o := by
  cases o <;> rfl

/-- A word decodes to what the operation of its tag makes of its fields, and to nothing else (R53). -/
theorem decode_eq_ok {w : Word} {i : Instr} : decode w = .ok i ↔ ∃ o : Op, o.tag = fieldOp w ∧ i = o.instr w := by
  constructor
  · intro hd
    cases ho : opOfTag (fieldOp w) with
    | none => simp [decode, ho] at hd
    | some o =>
      simp only [decode, ho, Except.ok.injEq] at hd
      exact ⟨o, tag_of_opOfTag ho, hd.symm⟩
  · rintro ⟨o, htag, rfl⟩
    exact decode_of_tag htag.symm

/-- Settles O22: the operations have the tags 0 to 13, and what an operation makes of a word is well formed. -/
theorem decodeAcceptsExactlyTags0To13 : Obligations.DecodeAcceptsExactlyTags0To13 := by
  intro w
  rw [← fieldOp_eq]
  refine ⟨⟨?_, fun htag => ?_⟩, fun i hd => ?_⟩
  · rintro ⟨i, hd⟩
    obtain ⟨o, htag, _⟩ := decode_eq_ok.mp hd
    exact htag ▸ Nat.le_of_lt_succ o.tag_lt
  · obtain ⟨i, hd, _⟩ := decode_wellFormed_of_tag_le htag
    exact ⟨i, hd⟩
  · obtain ⟨o, htag, rfl⟩ := decode_eq_ok.mp hd
    exact ⟨o.instr_wellFormed w, by rw [o.instr_op, htag]⟩

/-! ## The encoding of what a word decodes to -/

namespace Laws.EncodeCanonical

/-- The family of per-instruction facts as one. -/
theorem forall_instr (i : Instr) : Statement i := by
  cases i with
  | cmov a b c => exact cmov a b c
  | aidx a b c => exact aidx a b c
  | aupd a b c => exact aupd a b c
  | add a b c => exact add a b c
  | mul a b c => exact mul a b c
  | div a b c => exact div a b c
  | nand a b c => exact nand a b c
  | halt => exact halt
  | alloc b c => exact alloc b c
  | free c => exact free c
  | output c => exact output c
  | input c => exact input c
  | loadp b c => exact loadp b c
  | ldi ia imm => exact ldi ia imm

end Laws.EncodeCanonical

/-- The encoder gives a canonical word (R60). -/
theorem canonical_encode {i : Instr} (h : i.wellFormed = true) : canonical (encode i) = true :=
  (Laws.EncodeCanonical.forall_instr i h).2

/-- A word left unchanged by a mask that drops the bits from `n` to 27 is 0 in those bits. -/
theorem mod_lt_of_and_mask {w m : Word} {n : Nat} (hm : ∀ i : Fin 28, n ≤ i.val → m.getLsbD i.val = false)
    (h : w &&& m = w) : w.toNat % 2 ^ 28 < 2 ^ n := by
  refine Nat.lt_pow_two_of_testBit _ fun i hi => ?_
  rw [Nat.testBit_mod_two_pow]
  by_cases hlt : i < 28
  · have hbit : w.getLsbD i = false := by rw [← h, BitVec.getLsbD_and, hm ⟨i, hlt⟩ hi, Bool.and_false]
    rw [show w.toNat.testBit i = false from hbit, Bool.and_false]
  · rw [decide_eq_false hlt, Bool.false_and]

section Reencode
variable {w : Word} {o : Op} (htag : o.tag = fieldOp w)
include htag

theorem encodeR3_abc_of_lt (h : w.toNat % 2 ^ 28 < 2 ^ 9) : encodeR3 o (fieldA w) (fieldB w) (fieldC w) = w := by
  apply BitVec.eq_of_toNat_eq
  rw [encodeR3_toNat, htag, fieldOp_eq, fieldA, fieldB, fieldC, regField_val, regField_val, regField_val]
  omega

theorem encodeR3_bc_of_lt (h : w.toNat % 2 ^ 28 < 2 ^ 6) : encodeR3 o 0 (fieldB w) (fieldC w) = w := by
  apply BitVec.eq_of_toNat_eq
  rw [encodeR3_toNat, htag, fieldOp_eq, fieldB, fieldC, regField_val, regField_val, Fin.val_zero]
  omega

theorem encodeR3_c_of_lt (h : w.toNat % 2 ^ 28 < 2 ^ 3) : encodeR3 o 0 0 (fieldC w) = w := by
  apply BitVec.eq_of_toNat_eq
  rw [encodeR3_toNat, htag, fieldOp_eq, fieldC, regField_val, Fin.val_zero]
  omega

theorem encodeR3_zero_of_lt (h : w.toNat % 2 ^ 28 < 2 ^ 0) : encodeR3 o 0 0 0 = w := by
  apply BitVec.eq_of_toNat_eq
  rw [encodeR3_toNat, htag, fieldOp_eq, Fin.val_zero]
  omega

end Reencode

theorem encodeLI_fields {w : Word} (htag : Op.ldi.tag = fieldOp w) : encodeLI .ldi (fieldIA w) (fieldIMM w) = w := by
  have himm : fieldIMM w ≤ 0x1FFFFFF := Nat.le_of_lt_succ (bits_le w 24 0)
  have htag13 : 13 = fieldOp w := htag
  apply BitVec.eq_of_toNat_eq
  rw [encodeLI_toNat himm, htag13, fieldOp_eq, fieldIA, fieldIMM, regField_val, bits_eq]
  omega

/-- A word of the operation's tag that the operation's mask leaves unchanged is the encoding of its own fields: format
by format, the used fields are all there is below the tag. -/
theorem encode_instr_of_mask {w : Word} {o : Op} (htag : o.tag = fieldOp w) (h : w &&& o.mask = w) :
    encode (o.instr w) = w := by
  cases o with
  | cmov | aidx | aupd | add | mul | div | nand =>
    exact encodeR3_abc_of_lt htag (mod_lt_of_and_mask (m := 0xF00001FF) (by decide) h)
  | halt => exact encodeR3_zero_of_lt htag (mod_lt_of_and_mask (m := 0xF0000000) (by decide) h)
  | alloc | loadp => exact encodeR3_bc_of_lt htag (mod_lt_of_and_mask (m := 0xF000003F) (by decide) h)
  | free | output | input => exact encodeR3_c_of_lt htag (mod_lt_of_and_mask (m := 0xF0000007) (by decide) h)
  | ldi => exact encodeLI_fields htag

/-- Settles O25: the encoder gives canonical words only, and a canonical word holds nothing but the fields encoded. -/
theorem encodeOfDecodeIffCanonical : Obligations.EncodeOfDecodeIffCanonical := by
  intro w i hd
  obtain ⟨o, htag, rfl⟩ := decode_eq_ok.mp hd
  have hexamined : examined w = o.mask := examined_of_opOfTag (htag ▸ opOfTag_tag o)
  constructor
  · intro he
    exact he ▸ canonical_encode (o.instr_wellFormed w)
  · intro hc
    exact encode_instr_of_mask htag (hexamined ▸ beq_iff_eq.mp hc)

end Sys2Proof
end

section
/-! PROOF. The invariant (10_state.md sections 3 and 8): listing and unlisting an array keep it, so every step keeps it;
it holds after every RESET; and what it says of the handles. -/

namespace Sys2Proof.Machine

/-! ## What keeps the invariant -/

section Keep
variable {s t : State} (hinv : Inv s)
include hinv

/-- The registers, `pc`, the status and the console have no part in the invariant. -/
theorem Inv.congr (hparams : t.params = s.params) (htable : t.table = s.table) : Inv t := by
  obtain ⟨hsome, hwords, hwf, hslots, ⟨a, ha⟩, hstorage⟩ := hinv
  refine ⟨hparams ▸ hsome, hparams ▸ hwords, htable ▸ hwf, ?_, ⟨a, ?_⟩, ?_⟩
  · rw [htable, hparams]; exact hslots
  · rw [State.array_congr hparams htable, ha]
  · rw [State.Fits, htable, hparams]; exact hstorage

/-- A canonical array listed in a slot of the table, within the storage. -/
theorem Inv.putArray {k : Nat} {a : Arr} (hk : k < s.params.maxHandles) (ha : a.wf)
    (hfits : s.Fits (Memory.used (put k a s.table))) : Inv { s with table := put k a s.table } := by
  obtain ⟨hsome, hwords, hwf, hslots, ⟨p, hp⟩, _⟩ := hinv
  refine ⟨hsome, hwords, Memory.put_wf hwf ha, fun e he => ?_, ?_, hfits⟩
  · obtain rfl | he := mem_put he
    · exact hk
    · exact hslots e he
  · by_cases hzero : k = 0
    · subst hzero
      exact ⟨a, State.array_put_same (h := 0) hk a⟩
    · exact ⟨p, (State.array_put_other (Ne.symm hzero) a).trans hp⟩

/-- A handle but 0 unlisted. -/
theorem Inv.delArray {k : Nat} (hk : k ≠ 0) : Inv { s with table := del k s.table } := by
  obtain ⟨hsome, hwords, hwf, hslots, ⟨p, hp⟩, hstorage⟩ := hinv
  exact ⟨hsome, hwords, Memory.del_wf hwf, fun e he => hslots e (mem_del he),
    ⟨p, (State.array_del_other (q := 0) hk.symm).trans hp⟩,
    fun cap hcap => (Memory.used_del_le s.table k).trans (hstorage cap hcap)⟩

/-- A write changes no length, so it takes no storage. -/
theorem Inv.store {h o v : Word} {x : Arr} (hx : s.array h = some x) (ho : o < x.len) :
    Inv { s with table := put h.toNat (x.set o v) s.table } := by
  obtain ⟨hslot, hfind⟩ := State.array_eq_some.mp hx
  have hused := Memory.used_put_old (a := x.set o v) hinv.canonicalTable.1 hfind
  rw [Arr.set_len, Nat.add_right_cancel_iff] at hused
  exact hinv.putArray hslot (Arr.set_wf (State.array_wf hinv.canonicalTable hx) ho) (hused ▸ hinv.storageWithin)

/-- Allocate lists a new array, for which it has found room (R104). -/
theorem Inv.alloc {h : Nat} {n : Word} (hmin : s.MinFree h) (hfits : s.Fits (s.usedAfterAlloc n)) :
    Inv { s with table := put h (Arr.zeros n) s.table } := by
  obtain ⟨⟨_, hslot, hfree⟩, _⟩ := hmin
  refine hinv.putArray hslot (Arr.zeros_wf n) ?_
  rw [Memory.used_put_new hfree]
  exact hfits

/-- The copy takes the place of the old program, for which LOADP has found room (R44, R122). -/
theorem Inv.replace0 {h : Word} {x : Arr} (hx : s.array h = some x) (hfits : s.Fits (s.usedAfterLoad x)) :
    Inv (s.replace0 x) := by
  obtain ⟨p, hp⟩ := hinv.programAllocated
  have hfind : find 0 s.table = some p := (State.array_eq_some.mp hp).2
  have hlen : s.programLen = p.len.toNat := by rw [State.programLen, hfind]
  have hused := Memory.used_put_old (a := x) hinv.canonicalTable.1 hfind
  have hold := Memory.len_le_used hfind
  refine hinv.putArray hinv.someSlot (State.array_wf hinv.canonicalTable hx) ?_
  rwa [show Memory.used (put 0 x s.table) = s.usedAfterLoad x by rw [State.usedAfterLoad, hlen]; omega]

end Keep

theorem Effect.inv {i : Instr} {s t : State} (he : Effect s i t) (hinv : Inv s) : Inv t := by
  cases he with
  | aupd hx ho => exact hinv.store hx ho
  | alloc hmin hfits => exact (hinv.alloc hmin hfits).congr rfl rfl
  | free h0 _ => exact hinv.delArray fun hzero => h0 (BitVec.eq_of_toNat_eq hzero)
  | load _ hx hfits => exact (hinv.replace0 hx hfits).congr rfl rfl
  | _ => exact hinv.congr rfl rfl

/-- Settles O51: a fault writes the status alone, and each effect of an instruction keeps the invariant. -/
theorem stepKeepsInvariant : Obligations.StepKeepsInvariant := by
  intro s t hinv hstep
  obtain ⟨_, ⟨_, _, rfl⟩ | ⟨_, _, ⟨_, rfl⟩ | ⟨_, _, hexec⟩⟩⟩ := step_cases hstep
  · exact hinv.congr rfl rfl
  · exact hinv.congr rfl rfl
  · exact (exec_effect hexec).inv (hinv.congr rfl rfl)

/-! ## Reset and boot -/

/-- Settles O50: the table of the reset state lists the image alone, and the image was found to fit. -/
theorem bootMeetsInvariant : Obligations.BootMeetsInvariant := by
  intro s t image hsome hwords hreset
  obtain ⟨⟨hlen, hfits⟩, rfl⟩ := State.assertReset_eq_next.mp hreset
  refine ⟨hsome, hwords, State.bootState_wf hlen, ?_, ⟨_, State.bootState_array_zero hsome⟩, ?_⟩
  · intro e he
    rw [List.mem_singleton.mp he]
    exact hsome
  · have hused : (State.bootState s.params image s.console).table.used = image.length := by
      simp only [State.bootState, Memory.used_cons, Memory.used_nil, Arr.ofWords_len hlen, Nat.add_zero]
    rw [hused]
    exact hfits

/-- Settles O49: `State.reset` is what RESET with the empty image leads to. -/
theorem resetMeetsInvariant : Obligations.ResetMeetsInvariant :=
  bootMeetsInvariant State.reset State.reset [] (by decide) (by decide) State.reset_eq_boot

theorem State.reset_eq_bootState :
    State.reset = State.bootState Config.Params.default [] ⟨[], .endOfStream, [], 0⟩ := rfl

/-- Settles O48: `State.reset` is the reset state of the empty image, read field by field. -/
theorem resetStateAsDescribed : Obligations.ResetStateAsDescribed := by
  unfold Obligations.ResetStateAsDescribed
  rw [State.reset_eq_bootState]
  exact ⟨State.bootState_reg, rfl, rfl, rfl, fun _ => State.bootState_array_other,
    ⟨Arr.ofWords [], State.bootState_array_zero (by decide), rfl⟩, State.reset_eq_boot⟩

/-- Settles O53: the program of the empty image has no word, so the first fetch fails. -/
theorem emptyImageFaultsAtOnce : Obligations.EmptyImageFaultsAtOnce := by
  intro s hsome
  have hfault : (State.bootState s.params [] s.console).fetch = .error .outOfBoundsOffset :=
    State.memRead_eq_error.mpr (.inr ⟨Arr.ofWords [], State.bootState_array_zero hsome, BitVec.le_refl _, rfl⟩)
  exact ⟨_, _, State.assertReset_eq_next.mpr ⟨⟨by decide, fun cap _ => Nat.zero_le cap⟩, rfl⟩,
    step_of_fetch_error rfl hfault, State.raise_faultTaken _ _⟩

/-! ## What the invariant says of the handles -/

/-- Settles O38: in a canonical table the look-up finds exactly what is listed, and every listed slot is in range. -/
theorem validHandlesAreAllocatedSlots : Obligations.ValidHandlesAreAllocatedSlots := by
  intro s h hinv
  refine ⟨fun x => ⟨fun hx => ?_, fun hlisted => ?_⟩, fun hrange => State.array_eq_none.mpr (.inl hrange)⟩
  · exact find_mem (State.array_eq_some.mp hx).2
  · exact State.array_eq_some.mpr ⟨hinv.slotsInTable _ hlisted, mem_find hinv.canonicalTable.1 hlisted⟩

/-- A table with rising keys below `n` lists at most `n` entries. -/
theorem Rising.length_le {α : Type} {l : List (Nat × α)} {n : Nat} (hrising : Rising l) (hlt : ∀ e ∈ l, e.1 < n) :
    l.length ≤ n := by
  have hnodup : (l.map Prod.fst).Nodup := hrising.imp Nat.ne_of_lt
  have hsub : l.map Prod.fst ⊆ List.range n := fun k hk => by
    obtain ⟨e, he, rfl⟩ := List.mem_map.mp hk
    exact List.mem_range.mpr (hlt e he)
  simpa using (hnodup.subperm hsub).length_le

/-- Settles O52: the handles listed differ and are slots of the table. -/
theorem arraysAreAtMostMaxHandles : Obligations.ArraysAreAtMostMaxHandles :=
  fun _ hinv => Rising.length_le hinv.canonicalTable.1 hinv.slotsInTable

/-- The free pool is made of the parameters and the keys listed (R16). -/
theorem State.minFree_congr {s t : State} (hparams : t.params = s.params)
    (hfind : ∀ j, find j t.table = find j s.table) {h : Nat} : t.MinFree h ↔ s.MinFree h := by
  simp only [State.MinFree, State.InFreePool, hparams, hfind]

/-- Listing a key that was free and unlisting it changes no look-up. -/
theorem find_del_put {α : Type} {k : Nat} {l : List (Nat × α)} (hfree : find k l = none) (v : α) (j : Nat) :
    find j (del k (put k v l)) = find j l := by
  by_cases hj : j = k
  · rw [hj, find_del_same, hfree]
  · rw [find_del_other hj, find_put_other hj]

/-- Settles O39: the array allocated can be freed, and freeing it restores the free pool and so its minimum. -/
theorem freedHandleIsReusedLowestFirst : Obligations.FreedHandleIsReusedLowestFirst := by
  intro s t n h hslots halloc
  obtain ⟨hmin, rfl⟩ := State.allocate_handle hslots halloc
  obtain ⟨hpos, _, hfree⟩ := hmin.1
  have hne : h ≠ 0 := fun hzero => by subst hzero; exact Nat.not_succ_le_zero 0 hpos
  refine ⟨_, State.deallocate_eq_ok.mpr ⟨hne, ?_, rfl⟩, fun m k v hnext => ?_⟩
  · rw [State.allocate_array_same hslots halloc]
    exact Option.some_ne_none _
  · obtain ⟨hnextMin, _⟩ := State.allocate_handle (by exact hslots) hnext
    have hk := (State.minFree_congr (by rfl) (find_del_put hfree (Arr.zeros n))).mp hnextMin
    exact BitVec.eq_of_toNat_eq (hk.unique hmin)

end Sys2Proof.Machine
end

section
/-! PROOF. The step (40_engine_cycle.md) as the effect of the instruction the engine is about to run, and what follows for
every step: `pc` (R14), the faults (R170, R171, R172), HALT (R120), the parameters (R5), and the console (R153). -/

namespace Sys2Proof.Machine

/-! ## The instruction of a step -/

theorem State.AboutToRun.unique {s : State} {i j : Instr} (hi : s.AboutToRun i) (hj : s.AboutToRun j) : i = j := by
  obtain ⟨_, w, hf, hd⟩ := hi
  obtain ⟨_, v, hf', hd'⟩ := hj
  cases hf.symm.trans hf'
  exact Except.ok.inj (hd.symm.trans hd')

theorem State.AboutToRun.running {s : State} {i : Instr} (h : s.AboutToRun i) : s.status = .running := h.1

theorem State.AboutToRun.effect {s t : State} {i : Instr} (h : s.AboutToRun i) (hstep : step s = .next t) :
    Effect s.advancePc i t :=
  exec_effect (h.step_eq.symm.trans hstep)

/-- A step is the effect of the instruction about to run, or, where there is none, a fault of the fetch or of the
dispatcher (R70). -/
theorem step_effect {s t : State} (hstep : step s = .next t) :
    (∃ i, s.AboutToRun i ∧ Effect s.advancePc i t) ∨
      (∀ i, ¬ s.AboutToRun i) ∧ ∃ k, t = s.raise k ∨ t = s.advancePc.raise k := by
  obtain ⟨hs, ⟨k, hf, rfl⟩ | ⟨w, hf, ⟨htag, rfl⟩ | ⟨i, hd, hexec⟩⟩⟩ := step_cases hstep
  · refine .inr ⟨?_, k, .inl rfl⟩
    rintro i ⟨_, v, hf', _⟩
    cases hf.symm.trans hf'
  · refine .inr ⟨?_, _, .inr rfl⟩
    rintro i ⟨_, v, hf', hd'⟩
    cases hf.symm.trans hf'
    cases (decode_malformed htag).symm.trans hd'
  · exact .inl ⟨i, ⟨hs, w, hf, hd⟩, exec_effect hexec⟩

/-- After a successful fetch the increment of `pc` is that of a number (R14, R73). -/
theorem State.pc_succ_toNat {s : State} {w : Word} (hf : s.fetch = .ok w) : (s.pc + 1).toNat = s.pc.toNat + 1 :=
  (BitVec.toNat_add ..).trans (Nat.mod_eq_of_lt (State.fetch_pc_lt hf))

/-- Settles O15: by the definition of the step, and since a fetch succeeds only below the length of an array. -/
theorem stepRunsDecodedInstruction : Obligations.StepRunsDecodedInstruction :=
  fun _ _ _ hs hf hd => ⟨step_of_decode hs hf hd, State.pc_succ_toNat hf⟩

/-- Settles O16: the fetch is a read of handle 0, which faults or answers the word as every read does. -/
theorem fetchIsChecked : Obligations.FetchIsChecked := by
  intro s x hs hx
  refine ⟨fun hlen => ?_, fun ho => State.memRead_eq_ok.mpr ⟨x, hx, ho, rfl⟩⟩
  have hfault : s.fetch = .error .outOfBoundsOffset := State.memRead_eq_error.mpr (.inr ⟨x, hx, hlen, rfl⟩)
  exact ⟨_, step_of_fetch_error hs hfault, s.raise_faultTaken _⟩

/-! ## Parameters, pc and status -/

theorem Effect.params {i : Instr} {s t : State} (he : Effect s i t) : t.params = s.params := by
  cases he <;> rfl

/-- Settles O44: neither a fault nor an effect writes them. -/
theorem parametersNeverChange : Obligations.ParametersNeverChange := by
  intro s t hstep
  obtain ⟨i, _, he⟩ | ⟨_, k, rfl | rfl⟩ := step_effect hstep
  · exact he.params
  · rfl
  · rfl

/-- A completed LOADP is the only effect on `pc` (R14). -/
theorem Effect.pc_cases {i : Instr} {s t : State} (he : Effect s i t) :
    t.pc = s.pc ∨ (∃ b c, i = .loadp b c) ∧ t.status = s.status := by
  cases he with
  | jump _ | load _ _ _ => exact .inr ⟨⟨_, _, rfl⟩, rfl⟩
  | _ => exact .inl rfl

theorem step_pc_of_fetch_error {s t : State} {k : FaultKind} (hstep : step s = .next t) (hf : s.fetch = .error k) :
    t.pc = s.pc := by
  obtain ⟨hs, _⟩ := step_cases hstep
  rw [step_of_fetch_error hs hf] at hstep
  cases hstep
  rfl

/-- After a successful fetch `pc` is the increment, unless a LOADP completes (R14, R73). -/
theorem step_pc_of_fetch_ok {s t : State} {w : Word} (hstep : step s = .next t) (hf : s.fetch = .ok w) :
    t.pc = s.pc + 1 ∨ (∃ b c, decode w = .ok (.loadp b c)) ∧ t.status = .running := by
  obtain ⟨hs, ⟨k, hf', _⟩ | ⟨v, hf', ⟨_, rfl⟩ | ⟨i, hd, hexec⟩⟩⟩ := step_cases hstep
  · cases hf.symm.trans hf'
  · exact .inl rfl
  · cases hf.symm.trans hf'
    obtain hpc | ⟨⟨b, c, rfl⟩, ht⟩ := (exec_effect hexec).pc_cases
    · exact .inl hpc
    · exact .inr ⟨⟨b, c, hd⟩, ht.trans hs⟩

/-- Settles O28: the row of the fetch fault, that of a completed LOADP, and the increment of every other step. -/
theorem pcAfterEachStep : Obligations.PcAfterEachStep := by
  intro s t hstep
  refine ⟨fun ⟨k, hf⟩ => step_pc_of_fetch_error hstep hf, fun w hf => ⟨fun b c hd ht => ?_, fun hother => ?_⟩⟩
  · obtain ⟨hs, _⟩ := step_cases hstep
    rw [step_of_decode hs hf hd] at hstep
    exact (exec_effect hstep).loadp_completed_pc ht
  · obtain hpc | ⟨⟨b, c, hd⟩, ht⟩ := step_pc_of_fetch_ok hstep hf
    · rw [hpc, State.pc_succ_toNat hf]
    · exact (hother.elim (· b c hd) (· ht)).elim

/-- HALT is the only effect that halts a running engine. -/
theorem Effect.halted_iff {i : Instr} {s t : State} (he : Effect s i t) (hs : s.status = .running) :
    t.status = .halted ↔ i = .halt := by
  cases he with
  | halt => exact ⟨fun _ => rfl, fun _ => rfl⟩
  | inputRaise _ _ => exact ⟨nofun, nofun⟩
  | raise _ hr => exact ⟨nofun, fun hi => by subst hi; exact hr.elim⟩
  | _ => exact ⟨fun ht => Status.noConfusion (hs.symm.trans ht), nofun⟩

/-- Settles O31: of the effects that of HALT alone leads to Halted, and a fault of the fetch or of the dispatcher leads
elsewhere. -/
theorem onlyHaltHalts : Obligations.OnlyHaltHalts := by
  intro s t hstep
  obtain ⟨i, hi, he⟩ | ⟨hnone, k, rfl | rfl⟩ := step_effect hstep
  · rw [he.halted_iff hi.running]
    exact ⟨fun h => h ▸ hi, fun h => hi.unique h⟩
  · exact ⟨nofun, fun h => (hnone _ h).elim⟩
  · exact ⟨nofun, fun h => (hnone _ h).elim⟩

/-! ## Faults -/

/-- A fault writes the status alone; one of IN has taken an answer from the console before (R171, R141). -/
theorem Effect.faulted_eq {i : Instr} {s t : State} {k : FaultKind} (he : Effect s i t) (hs : s.status = .running)
    (ht : t.status = .faulted k) :
    ∃ c : Console, t = State.raise { s with console := c } k ∧ c.output = s.console.output ∧
      (k ≠ .outOfRangeInput → c = s.console) := by
  cases he with
  | raise _ _ => cases ht; exact ⟨s.console, rfl, rfl, fun _ => rfl⟩
  | inputRaise hk _ =>
    cases ht
    obtain ⟨houtput, _⟩ := Console.take_some hk
    exact ⟨_, rfl, houtput, fun hne => absurd rfl hne⟩
  | halt => cases ht
  | _ => exact Status.noConfusion (hs.symm.trans ht)

/-- The state a fault leaves, but for `pc` (R171). -/
theorem step_faulted_eq {s t : State} {k : FaultKind} (hstep : step s = .next t) (ht : t.status = .faulted k) :
    ∃ (p : Word) (c : Console), t = State.raise { s with pc := p, console := c } k ∧
      c.output = s.console.output ∧ (k ≠ .outOfRangeInput → c = s.console) := by
  obtain ⟨i, hi, he⟩ | ⟨_, k, rfl | rfl⟩ := step_effect hstep
  · obtain ⟨c, heq, hconsole⟩ := he.faulted_eq hi.running ht
    exact ⟨s.pc + 1, c, heq, hconsole⟩
  · cases ht; exact ⟨s.pc, s.console, rfl, rfl, fun _ => rfl⟩
  · cases ht; exact ⟨s.pc + 1, s.console, rfl, rfl, fun _ => rfl⟩

/-- Settles O29: the state a fault leaves is read field by field, and a step that faults is no completed LOADP. -/
theorem faultsArePrecise : Obligations.FaultsArePrecise := by
  intro s t k hstep ht
  have hpcError : (∃ k', s.fetch = .error k') → t.pc = s.pc := fun ⟨_, hf⟩ => step_pc_of_fetch_error hstep hf
  have hpcOk (w : Word) (hf : s.fetch = .ok w) : t.pc = s.pc + 1 :=
    (step_pc_of_fetch_ok hstep hf).resolve_right fun ⟨_, hrunning⟩ => nomatch ht.symm.trans hrunning
  obtain ⟨p, c, rfl, houtput, hconsole⟩ := step_faulted_eq hstep ht
  exact ⟨fun _ => rfl, rfl, rfl, houtput, hconsole, hpcError, hpcOk⟩

/-! ## The table of fault kinds (R170) -/

/-- The increment of `pc` has no part in an instruction's fault conditions. -/
theorem raises_advancePc {i : Instr} {s : State} {k : FaultKind} : Raises k i s.advancePc ↔ Raises k i s := by
  cases i <;> exact Iff.rfl

/-- An instruction whose row of R170's table holds ends in that fault. -/
theorem exec_status_of_raises {i : Instr} {s t : State} {k : FaultKind} (hr : Raises k i s)
    (hexec : exec i s = .next t) : t.status = .faulted k := by
  by_cases hin : i.op = .input
  · cases i with
    | input c =>
      obtain ⟨v, rest, htake, hv, rfl⟩ := hr
      cases (exec_of_effect (.inputRaise htake hv)).symm.trans hexec
      rfl
    | _ => cases hin
  · cases (exec_of_raises hin hr).symm.trans hexec
    rfl

theorem faultCondition_of_fetch_error {s : State} {k k' : FaultKind} (hinv : Inv s) (hf : s.fetch = .error k') :
    FaultCondition k s ↔ k' = k := by
  obtain ⟨p, hp⟩ := hinv.programAllocated
  obtain ⟨hnone, _⟩ | ⟨x, hx, hlen, rfl⟩ := State.memRead_eq_error.mp hf
  · cases hp.symm.trans hnone
  · constructor
    · rintro (⟨_, rfl⟩ | ⟨w, hf', _⟩)
      · rfl
      · cases hf.symm.trans hf'
    · rintro rfl
      exact .inl ⟨⟨x, hx, hlen⟩, rfl⟩

theorem faultCondition_of_fetch_ok {s : State} {w : Word} {k : FaultKind} (hf : s.fetch = .ok w) :
    FaultCondition k s ↔ (14 ≤ fieldOp w ∧ k = .malformedOperation) ∨ ∃ i, decode w = .ok i ∧ Raises k i s := by
  constructor
  · rintro (⟨⟨x, hx, hlen⟩, _⟩ | ⟨v, hf', hcond⟩)
    · have hfault : s.fetch = .error .outOfBoundsOffset := State.memRead_eq_error.mpr (.inr ⟨x, hx, hlen, rfl⟩)
      cases hf.symm.trans hfault
    · cases hf.symm.trans hf'
      exact hcond
  · exact fun hcond => .inr ⟨w, hf, hcond⟩

/-- Settles O30: the invariant leaves the fetch one fault; a word with tag 14 or 15 is no instruction; and an instruction
faults exactly by its row. -/
theorem faultsRaisedExactlyAsListed : Obligations.FaultsRaisedExactlyAsListed := by
  intro s t k hinv hstep
  obtain ⟨hs, ⟨k', hf, rfl⟩ | ⟨w, hf, ⟨htag, rfl⟩ | ⟨i, hd, hexec⟩⟩⟩ := step_cases hstep
  · rw [faultCondition_of_fetch_error hinv hf, State.raise_status, Status.faulted.injEq]
  · rw [faultCondition_of_fetch_ok hf, State.raise_status, Status.faulted.injEq]
    constructor
    · rintro rfl
      exact .inl ⟨htag, rfl⟩
    · rintro (⟨_, rfl⟩ | ⟨i, hd, _⟩)
      · rfl
      · cases (decode_malformed htag).symm.trans hd
  · rw [faultCondition_of_fetch_ok hf]
    constructor
    · exact fun ht => .inr ⟨i, hd, raises_advancePc.mp ((exec_effect hexec).raises_of_faulted hs ht)⟩
    · rintro (⟨htag, _⟩ | ⟨j, hd', hr⟩)
      · cases (decode_malformed htag).symm.trans hd
      · cases hd.symm.trans hd'
        exact exec_status_of_raises (raises_advancePc.mpr hr) hexec

end Sys2Proof.Machine
end

section
/-! PROOF. The register table of R12 (10_state.md section 1): no instruction writes a register outside its writes column,
and none depends on a register outside its reads column; and the idioms of R61. -/

namespace Sys2Proof.Machine

/-! ## Registers written -/

theorem Effect.reg_of_not_written {i : Instr} {s t : State} {r : Reg} (he : Effect s i t)
    (hr : r ∉ registersWritten i s) : t.reg r = s.reg r := by
  cases he with
  | cmovMove hc | div hc =>
    rw [registersWritten, if_neg hc] at hr
    exact State.setReg_reg_other _ _ _ _ (List.ne_of_not_mem_cons hr)
  | add | mul | nand | ldi | aidx _ _ | alloc _ _ | inputByte _ _ | inputEnd _ =>
    exact State.setReg_reg_other _ _ _ _ (List.ne_of_not_mem_cons hr)
  | _ => rfl

/-- Settles O26: each effect writes at most the one register of the column. -/
theorem registersWrittenAsListed : Obligations.RegistersWrittenAsListed :=
  fun _ _ _ hexec _ hr => (exec_effect hexec).reg_of_not_written hr

/-! ## Registers read -/

/-- Instruction `i`, which leads from `s` to `t`, does the same with another value `v` in register `r`: the states after
differ in `r` alone, and not even there when `i` completes and writes `r`. -/
def RunsAlikeWith (r : Reg) (v : Word) (i : Instr) (s t : State) : Prop :=
  ∃ t', Effect (s.setReg r v) i t' ∧ OnlyRegs [r] t t' ∧
    (s.status = .running → (∀ k, t.status ≠ .faulted k) → r ∈ registersWritten i s → t'.reg r = t.reg r)

section RunsAlike
variable {r : Reg} {v : Word} {i : Instr} {s t : State}

/-- An instruction that ends with the write of one word, whatever register `r` held before. -/
theorem RunsAlikeWith.of_write {u : State} {a : Reg} {x : Word}
    (he : Effect (s.setReg r v) i ((u.setReg r v).setReg a x)) (hw : ∀ q ∈ registersWritten i s, q = a) :
    RunsAlikeWith r v i s (u.setReg a x) := by
  refine ⟨_, he, ⟨fun q hq => ?_, rfl, rfl, rfl, rfl, rfl⟩, fun _ _ hr => ?_⟩
  · simp only [State.setReg_reg, if_neg (List.ne_of_not_mem_cons hq)]
  · rw [hw r hr, State.setReg_reg_same, State.setReg_reg_same]

/-- An instruction that leaves the registers alone, or faults: the other value in `r` stays there. -/
theorem RunsAlikeWith.of_keep (he : Effect (s.setReg r v) i (t.setReg r v))
    (hkeep : registersWritten i s = [] ∨ ∃ k, t.status = .faulted k) : RunsAlikeWith r v i s t := by
  refine ⟨_, he, t.setReg_onlyRegs r v, fun _ hfree hr => ?_⟩
  obtain hnone | ⟨k, hk⟩ := hkeep
  · exact absurd hr (hnone ▸ List.not_mem_nil)
  · exact absurd hk (hfree k)

theorem setReg_reg_of_read (hr : r ∉ registersRead i s) : ∀ q ∈ registersRead i s, (s.setReg r v).reg q = s.reg q :=
  fun _ hq => State.setReg_reg_other _ _ _ _ (ne_of_mem_of_not_mem hq hr)

theorem setReg_reg_of_reads_one {c : Reg} (hr : r ∉ registersRead i s) (hi : registersRead i s = [c]) :
    (s.setReg r v).reg c = s.reg c :=
  setReg_reg_of_read hr c (hi ▸ List.mem_singleton_self c)

theorem setReg_reg_of_reads_two {b c : Reg} (hr : r ∉ registersRead i s) (hi : registersRead i s = [b, c]) :
    (s.setReg r v).reg b = s.reg b ∧ (s.setReg r v).reg c = s.reg c := by
  simpa [hi] using setReg_reg_of_read (v := v) hr

theorem setReg_reg_of_reads_three {a b c : Reg} (hr : r ∉ registersRead i s) (hi : registersRead i s = [a, b, c]) :
    (s.setReg r v).reg a = s.reg a ∧ (s.setReg r v).reg b = s.reg b ∧ (s.setReg r v).reg c = s.reg c := by
  simpa [hi] using setReg_reg_of_read (v := v) hr

/-- The fault conditions of an instruction look at the registers it reads, the table and the parameters. -/
theorem raises_setReg {k : FaultKind} (hin : i.op ≠ .input) (hr : r ∉ registersRead i s) (hraises : Raises k i s) :
    Raises k i (s.setReg r v) := by
  have hreg := setReg_reg_of_read (v := v) hr
  cases i with
  | input c => exact absurd rfl hin
  | cmov | add | mul | nand | halt | ldi => exact hraises.elim
  | _ =>
    simp only [registersRead, List.forall_mem_cons] at hreg
    simp only [Raises, hreg]
    exact hraises

/-- Every effect looks only at the registers of the reads column: with their values unchanged it is the same effect. -/
theorem Effect.runsAlikeWith (he : Effect s i t) (hr : r ∉ registersRead i s) : RunsAlikeWith r v i s t := by
  cases he with
  | cmovMove hc =>
    obtain ⟨hb, hc'⟩ := setReg_reg_of_reads_two (v := v) hr (if_neg hc)
    exact .of_write (by rw [← hb]; exact .cmovMove (hc' ▸ hc)) (by simp [registersWritten])
  | cmovKeep hc =>
    have hc' := setReg_reg_of_reads_one (v := v) hr (if_pos hc)
    exact .of_keep (.cmovKeep (hc'.trans hc)) (.inl (if_pos hc))
  | add =>
    obtain ⟨hb, hc⟩ := setReg_reg_of_reads_two (v := v) hr rfl
    exact .of_write (by rw [← hb, ← hc]; exact .add) (by simp [registersWritten])
  | mul =>
    obtain ⟨hb, hc⟩ := setReg_reg_of_reads_two (v := v) hr rfl
    exact .of_write (by rw [← hb, ← hc]; exact .mul) (by simp [registersWritten])
  | div hne =>
    obtain ⟨hb, hc⟩ := setReg_reg_of_reads_two (v := v) hr rfl
    exact .of_write (by rw [← hb, ← hc]; exact .div (hc ▸ hne)) (by simp [registersWritten])
  | nand =>
    obtain ⟨hb, hc⟩ := setReg_reg_of_reads_two (v := v) hr rfl
    exact .of_write (by rw [← hb, ← hc]; exact .nand) (by simp [registersWritten])
  | ldi => exact .of_write .ldi (by simp [registersWritten])
  | aidx hx ho =>
    obtain ⟨hb, hc⟩ := setReg_reg_of_reads_two (v := v) hr rfl
    exact .of_write (by rw [← hc]; exact .aidx (hb ▸ hx) (hc ▸ ho)) (by simp [registersWritten])
  | aupd hx ho =>
    obtain ⟨ha, hb, hc⟩ := setReg_reg_of_reads_three (v := v) hr rfl
    exact .of_keep (by rw [← ha, ← hb, ← hc]; exact .aupd (ha ▸ hx) (hb ▸ ho)) (.inl rfl)
  | alloc hmin hfits =>
    have hc := setReg_reg_of_reads_one (v := v) hr rfl
    exact .of_write (by rw [← hc]; exact .alloc hmin (hc ▸ hfits)) (by simp [registersWritten])
  | free h0 halloc =>
    have hc := setReg_reg_of_reads_one (v := v) hr rfl
    exact .of_keep (by rw [← hc]; exact .free (hc ▸ h0) (hc ▸ halloc)) (.inl rfl)
  | halt => exact .of_keep .halt (.inl rfl)
  | jump hzero =>
    obtain ⟨hb, hc⟩ := setReg_reg_of_reads_two (v := v) hr rfl
    exact .of_keep (by rw [← hc]; exact .jump (hb ▸ hzero)) (.inl rfl)
  | load hne hx hfits =>
    obtain ⟨hb, hc⟩ := setReg_reg_of_reads_two (v := v) hr rfl
    exact .of_keep (by rw [← hc]; exact .load (hb ▸ hne) (hb ▸ hx) hfits) (.inl rfl)
  | output hv =>
    have hc := setReg_reg_of_reads_one (v := v) hr rfl
    exact .of_keep (by rw [← hc]; exact .output (hc ▸ hv)) (.inl rfl)
  | inputByte hk hv => exact .of_write (.inputByte hk hv) (by simp [registersWritten])
  | inputEnd hk => exact .of_write (.inputEnd hk) (by simp [registersWritten])
  | inputRaise hk hv => exact .of_keep (.inputRaise hk hv) (.inr ⟨_, rfl⟩)
  | raise hin hraises => exact .of_keep (.raise hin (raises_setReg hin hr hraises)) (.inr ⟨_, rfl⟩)

end RunsAlike

/-- Settles O27: the effect with the other value in `r` is the same one, and every effect is reached. -/
theorem registersReadAsListed : Obligations.RegistersReadAsListed := by
  intro i s t r v hr hexec
  obtain ⟨t', he, hframe, hwritten⟩ := (exec_effect hexec).runsAlikeWith (v := v) hr
  exact ⟨t', exec_of_effect he, hframe, hwritten⟩

/-! ## The idioms (R61) -/

theorem State.setReg_self (s : State) (r : Reg) : s.setReg r (s.reg r) = s := by
  simp only [State.setReg, State.reg, Fin.getElem_fin, Vector.set_getElem_self]

theorem addWord_allOnes (x : Word) : addWord x 0xFFFFFFFF = x - 1 := by
  apply BitVec.eq_of_toNat_eq
  rw [addWord_toNat, BitVec.toNat_sub, Nat.add_comm]
  rfl

/-- Settles O45: a jump for LOADP, and for the others the word computed, as a number or by the laws of words. -/
theorem idiomsDoAsListed : Obligations.IdiomsDoAsListed := by
  intro a b c z n s
  refine ⟨fun hz => ?_, fun hn => ?_, ?_, fun hz => ?_, fun hn => ?_, ?_, ?_⟩
  · exact ⟨_, exec_of_effect (.jump hz), rfl, rfl⟩
  · exact ⟨_, exec_of_effect (.cmovMove hn), State.setReg_reg_same _ _ _⟩
  · exact ⟨_, exec_of_effect .nand, by rw [State.setReg_reg_same, nandWord, BitVec.and_self]⟩
  · exact ⟨_, exec_of_effect .nand, by rw [State.setReg_reg_same, nandWord, hz]; rfl⟩
  · exact ⟨_, exec_of_effect .add, by rw [State.setReg_reg_same, hn, addWord_allOnes]⟩
  · decide
  · by_cases h0 : s.reg 0 = 0
    · exact exec_of_effect (.cmovKeep h0)
    · exact (exec_of_effect (.cmovMove h0)).trans (by rw [State.setReg_self])

end Sys2Proof.Machine
end

section
/-! PROOF. The console in every step (44_console_ops.md, 45_interfaces.md): requests are made by IN alone and answered in
order (R153), a console that keeps its contract (R157) never causes OutOfRangeInput, and what has crossed before has no
influence (R158); and the numeric form of STATUS (R154). -/

namespace Sys2Proof.Machine

/-- IN is the only effect on the console's requests and answers: it takes one answer. -/
theorem Effect.console_cases {i : Instr} {s t : State} (he : Effect s i t) :
    ((∀ c, i ≠ .input c) ∧ t.console.requests = s.console.requests ∧ t.console.answers = s.console.answers) ∨
      ∃ c a, i = .input c ∧ s.console.take = some (a, t.console) := by
  cases he with
  | inputByte hk _ | inputEnd hk | inputRaise hk _ => exact .inr ⟨_, _, rfl, hk⟩
  | raise hin _ => exact .inl ⟨fun c hi => hin (congrArg Instr.op hi), rfl, rfl⟩
  | _ => exact .inl ⟨nofun, rfl, rfl⟩

/-- Settles O33: by the two cases of an effect; where no instruction is about to run the console is left alone. -/
theorem inputTakesOneAnswerInOrder : Obligations.InputTakesOneAnswerInOrder := by
  intro s t hstep
  obtain ⟨i, hi, he⟩ | ⟨hnone, k, rfl | rfl⟩ := step_effect hstep
  · obtain ⟨hother, hsame⟩ | ⟨c, a, rfl, htake⟩ := he.console_cases
    · exact .inr ⟨fun c hin => hother c (hi.unique hin), hsame⟩
    · obtain ⟨_, hrequests, _, hanswers⟩ := Console.take_some htake
      exact .inl ⟨⟨c, hi⟩, hrequests, hanswers.imp (fun hlisted => ⟨a, hlisted⟩)
        fun ⟨hempty, hempty', _, hend⟩ => ⟨hempty, hempty', hend⟩⟩
  · exact .inr ⟨fun c => hnone _, rfl, rfl⟩
  · exact .inr ⟨fun c => hnone _, rfl, rfl⟩

/-! ## The contract of `CONS_IN` -/

section Contract
variable {k k' : Console} {a : ConsoleAnswer} (hcontract : k.KeepsContract) (htake : k.take = some (a, k'))
include hcontract htake

/-- The console after one request keeps the contract: its answers were listed before. -/
theorem Console.KeepsContract.take : k'.KeepsContract := by
  intro v hv
  obtain ⟨_, _, _, hlisted | ⟨_, hempty, _⟩⟩ := Console.take_some htake
  · exact hcontract v (hlisted ▸ List.mem_cons_of_mem a hv)
  · rw [hempty] at hv
    exact absurd hv List.not_mem_nil

theorem Console.KeepsContract.answer_le {v : Word} (ha : a = .byte v) : v ≤ Config.byteMax := by
  subst ha
  obtain ⟨_, _, _, hlisted | ⟨_, _, hend, _⟩⟩ := Console.take_some htake
  · exact hcontract v (hlisted ▸ List.mem_cons_self)
  · cases hend

end Contract

/-- An access to an array raises one of two kinds. -/
theorem AccessRaises.kind {k : FaultKind} {s : State} {h o : Word} (hr : AccessRaises k s h o) :
    k = .invalidHandle ∨ k = .outOfBoundsOffset := by
  obtain ⟨_, hk⟩ | ⟨_, _, _, hk⟩ := hr
  · exact .inl hk
  · exact .inr hk

/-- OutOfRangeInput is raised by an IN that is answered with a value above 255 (R141). -/
theorem raises_outOfRangeInput {i : Instr} {s : State} (hr : Raises .outOfRangeInput i s) :
    ∃ v rest, s.console.take = some (.byte v, rest) ∧ Config.byteMax < v := by
  cases i with
  | input c =>
    obtain ⟨v, rest, htake, hv, _⟩ := hr
    exact ⟨v, rest, htake, hv⟩
  | cmov | add | mul | nand | halt | ldi => exact hr.elim
  | aidx | aupd => obtain hk | hk := hr.kind <;> cases hk
  | div | alloc | free | output => exact nomatch hr.2
  | loadp => obtain ⟨_, ⟨_, hk⟩ | ⟨_, _, _, hk⟩⟩ := hr <;> cases hk

theorem Effect.keepsContract {i : Instr} {s t : State} (he : Effect s i t) (hcontract : s.console.KeepsContract) :
    t.console.KeepsContract := by
  obtain ⟨_, _, hsame⟩ | ⟨_, _, _, htake⟩ := he.console_cases
  · intro v hv
    exact hcontract v (hsame ▸ hv)
  · exact hcontract.take htake

/-- Settles O34: the fetch and the dispatcher raise other kinds, and an answer within the contract is at most 255. -/
theorem noOutOfRangeInputUnderContract : Obligations.NoOutOfRangeInputUnderContract := by
  intro s t hcontract hstep
  obtain ⟨hs, ⟨k, hf, rfl⟩ | ⟨w, _, ⟨_, rfl⟩ | ⟨i, _, hexec⟩⟩⟩ := step_cases hstep
  · refine ⟨fun hk => ?_, hcontract⟩
    cases hk
    obtain hk | hk := (State.memRead_eq_error.mp hf).kind <;> cases hk
  · exact ⟨nofun, hcontract⟩
  · have he := exec_effect hexec
    refine ⟨fun ht => ?_, he.keepsContract hcontract⟩
    obtain ⟨v, rest, htake, hv⟩ := raises_outOfRangeInput (he.raises_of_faulted hs ht)
    exact BitVec.not_lt.mpr (Console.KeepsContract.answer_le hcontract htake rfl) hv

/-! ## The past at the console -/

section Past
variable (past : List Byte) (n : Nat)

/-- A request is answered alike whatever has crossed before. -/
theorem State.withPast_take {s : State} {a : ConsoleAnswer} {k : Console} (h : s.console.take = some (a, k)) :
    (s.withPast past n).console.take = some (a, (State.withPast { s with console := k } past n).console) := by
  obtain ⟨regs, pc, table, status, params, ⟨answers, atEnd, output, requests⟩⟩ := s
  cases answers with
  | cons b rest => cases h; rfl
  | nil =>
    cases atEnd with
    | endOfStream => cases h; rfl
    | silent => cases h

theorem State.consoleOut_withPast (s : State) (b : Byte) :
    (s.consoleOut b).withPast past n = (s.withPast past n).consoleOut b := by
  simp only [State.consoleOut, State.withPast, List.append_assoc]

/-- No fault condition but that of IN looks at the console. -/
theorem raises_withPast {i : Instr} {s : State} {k : FaultKind} (hin : i.op ≠ .input) (hr : Raises k i s) :
    Raises k i (s.withPast past n) := by
  cases i with
  | input c => exact absurd rfl hin
  | _ => exact hr

theorem Effect.withPast {i : Instr} {s t : State} (he : Effect s i t) :
    Effect (s.withPast past n) i (t.withPast past n) := by
  cases he with
  | cmovMove hc => exact .cmovMove hc
  | cmovKeep hc => exact .cmovKeep hc
  | add => exact .add
  | mul => exact .mul
  | div hc => exact .div hc
  | nand => exact .nand
  | ldi => exact .ldi
  | aidx hx ho => exact .aidx hx ho
  | aupd hx ho => exact .aupd hx ho
  | alloc hm hf => exact .alloc hm hf
  | free h0 ha => exact .free h0 ha
  | halt => exact .halt
  | jump hb => exact .jump hb
  | load hb hx hf => exact .load hb hx hf
  | output hv => rw [State.consoleOut_withPast]; exact .output hv
  | inputByte hk hv => exact .inputByte (State.withPast_take past n hk) hv
  | inputEnd hk => exact .inputEnd (State.withPast_take past n hk)
  | inputRaise hk hv => exact .inputRaise (State.withPast_take past n hk) hv
  | raise hin hr => exact .raise hin (raises_withPast past n hin hr)

end Past

/-- Settles O46: the past has no part in the fetch and the decoder, and goes through every effect unchanged. -/
theorem pastConsoleTrafficHasNoInfluence : Obligations.PastConsoleTrafficHasNoInfluence := by
  intro s t past n hstep
  obtain ⟨hs, ⟨k, hf, rfl⟩ | ⟨w, hf, ⟨htag, rfl⟩ | ⟨i, hd, hexec⟩⟩⟩ := step_cases hstep
  · exact step_of_fetch_error (s := s.withPast past n) hs hf
  · exact step_of_decode_error (s := s.withPast past n) hs hf (decode_malformed htag)
  · exact (step_of_decode (s := s.withPast past n) hs hf hd).trans
      (exec_of_effect ((exec_effect hexec).withPast past n))

/-! ## STATUS -/

/-- Settles O54: the codes are read from the definition. -/
theorem statusPortCodes : Obligations.StatusPortCodes := ⟨rfl, rfl, rfl, rfl, rfl, rfl, rfl, rfl, rfl⟩

end Sys2Proof.Machine
end

section
/-! PROOF. The array space in every step (20_memory.md, 42_array_ops.md): which instruction changes the array of a handle
and how (R30, R109), the store seen by the next fetch (R41), and the placing of an instruction word (log 2). -/

namespace Sys2Proof.Machine

/-! ## What changes the array of a handle -/

/-- Instruction `i`, which leads from `s` to `t`, changes the array of handle `h`: the four ways there are. -/
inductive ArrayChange (s t : State) (h : Word) : Instr → Prop where
  | store {a b c : Reg} {x : Arr} (ha : s.reg a = h) (hx : s.array h = some x)
      (hx' : t.array h = some (x.set (s.reg b) (s.reg c))) : ArrayChange s t h (.aupd a b c)
  | allocate {b c : Reg} (hb : t.reg b = h) (hfree : s.array h = none) : ArrayChange s t h (.alloc b c)
  | deallocate {c : Reg} (hc : s.reg c = h) (h0 : h ≠ 0) (hfree : t.array h = none) : ArrayChange s t h (.free c)
  | load {b c : Reg} {x : Arr} (h0 : h = 0) (hb : s.reg b ≠ 0) (hx : t.array h = some x) :
      ArrayChange s t h (.loadp b c)

/-- An effect that changes the array of a handle is one of the four. -/
theorem Effect.arrayChange {i : Instr} {s t : State} {h : Word} (he : Effect s i t)
    (hne : t.array h ≠ s.array h) : ArrayChange s t h i := by
  cases he with
  | @aupd a b c x hx ho =>
    have hw := State.memWrite_eq_ok (v := s.reg c).mpr ⟨x, hx, ho, rfl⟩
    have hh : h = s.reg a := by_contra fun hh => hne (State.memWrite_array_other hw hh)
    subst hh
    exact .store rfl hx (State.array_put_same (State.array_eq_some.mp hx).1 _)
  | @alloc b c k hmin hfits =>
    have hkey : h.toNat = k := by_contra fun hkey => hne (State.array_put_other (s := s) hkey _)
    subst hkey
    refine .allocate ?_ (State.array_eq_none.mpr (.inr hmin.1.2.2))
    rw [State.setReg_reg_same, BitVec.ofNat_toNat, BitVec.setWidth_eq]
  | @free c h0 halloc =>
    have hd := State.deallocate_eq_ok.mpr ⟨h0, halloc, rfl⟩
    have hh : h = s.reg c := by_contra fun hh => hne (State.deallocate_array_other hd hh)
    subst hh
    exact .deallocate rfl h0 (State.deallocate_array_same hd)
  | @load b c x hb hx hfits =>
    have hh : h = 0 := by_contra fun hh => hne (State.replace0_array_other (s := s) hh x)
    subst hh
    exact .load rfl hb (State.replace0_array_zero (State.one_le_maxHandles_of_array hx) x)
  | _ => exact absurd rfl hne

/-- A step that changes the array of a handle runs an instruction that does so. -/
theorem step_arrayChange {s t : State} {h : Word} (hstep : step s = .next t) (hne : t.array h ≠ s.array h) :
    ∃ i, s.AboutToRun i ∧ ArrayChange s t h i := by
  obtain ⟨i, hi, he⟩ | ⟨_, k, rfl | rfl⟩ := step_effect hstep
  · refine ⟨i, hi, ?_⟩
    cases he.arrayChange hne with
    | store ha hx hx' => exact .store ha hx hx'
    | allocate hb hfree => exact .allocate hb hfree
    | deallocate hc h0 hfree => exact .deallocate hc h0 hfree
    | load h0 hb hx => exact .load h0 hb hx
  · exact absurd rfl hne
  · exact absurd rfl hne

/-- Settles O35: the word of a pair is that of its array, and a store leaves every other word of it. -/
theorem memoryChangedOnlyByItsOperations : Obligations.MemoryChangedOnlyByItsOperations := by
  intro s t h o hstep hne
  obtain ⟨i, hi, hchange⟩ := step_arrayChange hstep fun hsame => hne (State.memRead_congr hsame o)
  cases hchange with
  | @store a b c x ha hx hx' =>
    have ho : o = s.reg b := by_contra fun ho => hne (by
      simp only [State.memRead, hx, hx', Arr.set_len, Arr.get_set_other x _ ho])
    exact .inl ⟨a, b, c, hi, by rw [State.pairOperand, ha, ho]⟩
  | allocate hb _ => exact .inr (.inl ⟨_, _, hi, hb⟩)
  | deallocate hc _ _ => exact .inr (.inr (.inl ⟨_, hi, hc⟩))
  | load h0 hb _ => exact .inr (.inr (.inr ⟨h0, _, _, hi, hb⟩))

/-- The handle a completed ALLOC returns is a slot but 0 that was free (R104). -/
theorem Effect.alloc_completed {b c : Reg} {s t : State} (he : Effect s (.alloc b c) t) (ht : t.status = .running)
    (hslots : s.params.maxHandles ≤ 2 ^ 32) : t.reg b ≠ 0 ∧ s.array (t.reg b) = none := by
  cases he with
  | @alloc _ _ k hmin _ =>
    obtain ⟨hpos, _, hfree⟩ := hmin.1
    have hkey : (BitVec.ofNat 32 k).toNat = k := hmin.1.toNat_ofNat hslots
    rw [State.setReg_reg_same]
    refine ⟨fun hzero => ?_, State.array_eq_none.mpr (.inr (by rw [hkey, hfree]))⟩
    rw [← hkey, hzero] at hpos
    exact Nat.not_succ_le_zero 0 hpos
  | raise _ _ => cases ht

/-- Settles O36: each clause leaves one of the four ways to change the array of a handle. -/
theorem arrayManagerNeverDoes : Obligations.ArrayManagerNeverDoes := by
  intro s t hstep
  refine ⟨fun h x y hs ht hlen => ?_, fun h x hs ht => ?_, fun h y h0 hs ht => ?_, fun hslots b c hi ht => ?_⟩
  · obtain ⟨i, hi, hchange⟩ := step_arrayChange (h := h) hstep (by rw [hs, ht]; rintro ⟨⟩; exact hlen rfl)
    cases hchange with
    | store _ hx hx' =>
      cases hs.symm.trans hx
      cases ht.symm.trans hx'
      exact absurd (Arr.set_len ..).symm hlen
    | allocate _ hfree => cases hs.symm.trans hfree
    | deallocate _ _ hfree => cases ht.symm.trans hfree
    | load h0 hb _ => exact ⟨h0, _, _, hi, hb⟩
  · obtain ⟨i, hi, hchange⟩ := step_arrayChange (h := h) hstep (by rw [hs, ht]; exact nofun)
    cases hchange with
    | store _ _ hx' => cases ht.symm.trans hx'
    | allocate _ hfree => cases hs.symm.trans hfree
    | deallocate hc h0 _ => exact ⟨h0, _, hi, hc⟩
    | load _ _ hx => cases ht.symm.trans hx
  · obtain ⟨i, hi, hchange⟩ := step_arrayChange (h := h) hstep (by rw [hs, ht]; exact nofun)
    cases hchange with
    | store _ hx _ => cases hs.symm.trans hx
    | allocate hb _ => exact ⟨_, _, hi, hb⟩
    | deallocate _ _ hfree => cases ht.symm.trans hfree
    | load hzero _ _ => exact absurd hzero h0
  · exact (hi.effect hstep).alloc_completed ht hslots

/-! ## The store and the next fetch -/

/-- AUPD completes as a write of the memory (R101). -/
theorem Effect.aupd_completed {a b c : Reg} {s t : State} (he : Effect s (.aupd a b c) t)
    (ht : t.status = .running) : s.memWrite (s.reg a) (s.reg b) (s.reg c) = .ok t := by
  cases he with
  | aupd hx ho => exact State.memWrite_eq_ok.mpr ⟨_, hx, ho, rfl⟩
  | raise _ _ => cases ht

/-- Settles O42: the next fetch reads the very pair written, since `pc` is advanced to it. -/
theorem storeIsSeenByTheNextFetch : Obligations.StoreIsSeenByTheNextFetch := by
  intro a b c s t hi ha hb hstep ht
  have hw := (hi.effect hstep).aupd_completed ht
  have hpc : t.pc = s.pc + 1 := (State.memWrite_onlyTable hw).pc
  have hread := State.memRead_memWrite_same hw
  rw [State.advancePc_reg, State.advancePc_reg, ha, hb, ← hpc] at hread
  exact hread

/-! ## A word placed for the next fetch -/

/-- The program lengthened as far as it takes holds the offset placed at, when that can be fetched at all (R14). -/
theorem lt_lengthened {p len : Word} (hp : p ≠ 0xFFFFFFFF) : p < if len ≤ p then p + 1 else len := by
  split
  · bv_omega
  · exact BitVec.not_le.mp ‹_›

theorem State.placeWord_pc_ne (s : State) (w : Word) : (s.placeWord w).pc ≠ 0xFFFFFFFF := by
  simp only [State.placeWord]
  split
  · decide
  · assumption

/-- The word placed is the one fetched next (R72). -/
theorem State.placeWord_fetch (s : State) (w : Word) : (s.placeWord w).fetch = .ok w := by
  refine State.memRead_eq_ok.mpr ⟨_, State.array_eq_some.mpr ⟨?_, find_put_same 0 _ _⟩, ?_, ?_⟩
  · exact Nat.le_max_left 1 s.params.maxHandles
  · exact lt_lengthened (s.placeWord_pc_ne w)
  · exact (Arr.get_set_same _ _ _).symm

/-- The placing touches no array but the program. -/
theorem State.placeWord_array_other {s : State} {h w : Word} (h0 : h ≠ 0) (hm : 1 ≤ s.params.maxHandles) :
    (s.placeWord w).array h = s.array h := by
  have hkey : h.toNat ≠ 0 := fun hzero => h0 (BitVec.eq_of_toNat_eq hzero)
  simp only [State.array, State.placeWord, find_put_other hkey, Nat.max_eq_right hm]

/-- Settles O55: with the word placed and the engine running the fetch and the decoder lead to `i`. -/
theorem placedWordIsRun : Obligations.PlacedWordIsRun := by
  intro s w i hw hd
  have hplace : s.withFetchWord 32 w = s.placeWord (BitVec.ofNat 32 w) := by
    rw [State.withFetchWord, Nat.mod_eq_of_lt hw]
  rw [hplace]
  have hi : (s.placeWord (BitVec.ofNat 32 w)).AboutToRun i := ⟨rfl, _, s.placeWord_fetch _, hd⟩
  exact ⟨hi, hi.step_eq, fun _ => rfl, rfl, fun h h0 hm => State.placeWord_array_other h0 hm⟩

end Sys2Proof.Machine
end
